-- ==== Sys2Proof/Config.lean ====
section
/-! DEFINITION. The block's parameters (00_scope.md R7): fixed constants, no argument of the model, and the
one configuration the spec refuses when the model is built (R8). No free value: no result of this block is undefined. -/

namespace Sys2Proof.Config

/-- `ELEM_W`, the element container's width (R7). -/
abbrev elemW : Nat := 128

/-- `DEG`, the field's degree (R7); also the one coefficient-free bit of the container (R9). -/
abbrev deg : Nat := 127

/-- `HALF_W`, the half-word's width (R7). -/
abbrev halfW : Nat := 64

/-- `SEL_W`, the constant selector's width (R7). -/
abbrev selW : Nat := 2

/-- `PROD_W`, the unreduced product's container (R7). -/
abbrev prodW : Nat := 256

/-- `CMD_W`, the command word's width (R7, D3). -/
abbrev cmdW : Nat := 8

/-- `OPND_W`, the operand bus's width (R7, D2). -/
abbrev opndW : Nat := 128

/-- `SMALL_W`, the small integer's width (R7, D9). -/
abbrev smallW : Nat := 64

/-- A configuration of the block. R8: one without the carry-less multiply primitive is refused at
elaboration, so a configuration carries the proof that the primitive is present. -/
structure Build where
  /-- `CLMUL_PRESENT` (R7). -/
  clmulPresent : Bool
  /-- The check of R8: no configuration without the primitive can be written down. -/
  present : clmulPresent = true

/-- The block this model describes (R94: the primitive is part of the block). -/
def build : Build := { clmulPresent := true, present := rfl }

end Sys2Proof.Config
end

