-- ==== Sys2Proof/Word.lean ====
section
/-! DEFINITION. The words of the block: what the spec treats as bits (00_scope.md R7, R9, R10). Bit i of an
element is the coefficient of x^i; no port carries bytes, so there is no byte order (20_memory.md R32). -/

namespace Sys2Proof

/-- The command word on the `cmd` port (30_encoding.md R45). -/
abbrev Cmd : Type := BitVec 8

/-- The element container (R9, R43); also the width of the `opnd` bus and of `q` (10_state.md R19). -/
abbrev Element : Type := BitVec 128

/-- A half-word (R10), the carry-less multiply's operand (R91). -/
abbrev Half : Type := BitVec 64

/-- The constant selector `sel[1:0]` (30_encoding.md R44). -/
abbrev Sel : Type := BitVec 2

end Sys2Proof
end

