-- ==== Sys2Proof/Syntax.lean ====
section
/-! DEFINITION. The commands of 30_encoding.md R46, one constructor per row of spec/opcode_table.json. The operand
travels on the `opnd` bus and is no part of the command word (R45), so only MULBIT has a field. -/

namespace Sys2Proof

/-- The 11 instructions of R46. -/
inductive Instr where
  /-- NOP: hold the register (40_element_reg.md R61). -/
  | nop
  /-- CLR: `zero()` (R62). -/
  | clr
  /-- LDS: `from_small_int(opnd[63:0])` (R63). -/
  | lds
  /-- LD: load an element (R64). -/
  | ld
  /-- ADD: `add(R, opnd)` (41_add.md R72). -/
  | add
  /-- MUL00: multiply by 0 (42_const_mult.md R83). -/
  | mul00
  /-- MUL01: multiply by 1 (R84). -/
  | mul01
  /-- MUL10: multiply by x (R85). -/
  | mul10
  /-- MUL11: multiply by x+1 (R86). -/
  | mul11
  /-- MULBIT b: `mul_bit(R, b)` (R88). -/
  | mulbit (b : Bool)
  /-- MUL: `mul(R, opnd)` (44_reduce_mul.md R105). -/
  | mul
  deriving DecidableEq, Repr

end Sys2Proof
end

