-- ==== Sys2Proof/WellFormed.lean ====
section
/-! DEFINITION. What the spec checks of a command before it has an effect: whether its word is legal
(30_encoding.md R52), and whether an instruction and the operand on the bus go together (R48, R50). Every
value of `Instr` has a word (R46), so an instruction can be ill-formed only through its operand. -/

namespace Sys2Proof

/-- The legal command words, read off the list of illegal ones in R52, bullet by bullet, and written without the
decoder, so that the two can be held against each other. -/
def legalCmd (cmd : Cmd) : Bool :=
  let rsv := cmd.extractLsb' 6 2
  let sel := cmd.extractLsb' 4 2
  let op  := (cmd.extractLsb' 0 4).toNat
  !(rsv != 0)                                          -- any `cmd` with `cmd[7:6] != 00`
    && !(8 ≤ op)                                       -- `op` in `1000`..`1111`
    && !([0, 1, 2, 3, 4, 7].contains op && sel != 0)   -- the commands whose `sel` must be `00`
    && !(op == 6 && sel.getLsbD 1)                     -- MULBIT with `sel[1] = 1`

namespace Instr

/-- The commands that read `opnd` as an element, and so require `opnd[127] = 0` (R46's column "reads `opnd`",
R48, 60_exceptions.md R116). -/
def readsElement : Instr → Bool
  | .ld | .add | .mul => true
  | .nop | .clr | .lds | .mul00 | .mul01 | .mul10 | .mul11 | .mulbit _ => false

/-- The commands whose result depends on `R` (10_state.md R15, 60_exceptions.md R117). -/
def readsR : Instr → Bool
  | .add | .mul01 | .mul10 | .mul11 | .mul => true
  | .mulbit b => b
  | .nop | .clr | .lds | .ld | .mul00 => false

/-- An instruction and the operand on the bus are well-formed together: a command that reads an element is
given one with bit 127 clear (R48); every other command takes any operand (R49, R50). -/
def wellFormed (i : Instr) (opnd : Element) : Bool := !(i.readsElement && opnd.getLsbD 127)

end Instr

end Sys2Proof
end

