-- ==== Sys2Proof/Decode.lean ====
section
/-! DEFINITION. The command word's fields (30_encoding.md R45), the total decoder (R55), the encoder (R46), and
the decoder as the host's opcode table numbers its bits. -/

namespace Sys2Proof

/-- `rsv = cmd[7:6]` (R45). -/
def Cmd.rsv (cmd : Cmd) : BitVec 2 := cmd.extractLsb' 6 2

/-- `sel = cmd[5:4]` (R45, R50). -/
def Cmd.sel (cmd : Cmd) : Sel := cmd.extractLsb' 4 2

/-- `op = cmd[3:0]` (R45). -/
def Cmd.op (cmd : Cmd) : BitVec 4 := cmd.extractLsb' 0 4

/-- The command word with the given fields (R45). -/
def Cmd.ofFields (rsv : BitVec 2) (sel : Sel) (op : BitVec 4) : Cmd := (rsv ++ sel) ++ op

/-- Why a word spells no command: the bullets of R52. -/
inductive Illegal where
  /-- `cmd[7:6] != 00`. -/
  | reservedBits
  /-- `op` in `1000`..`1111`. -/
  | reservedOpcode
  /-- `sel != 00` on a command that has no selector. -/
  | selectorNotZero
  /-- MULBIT with `sel[1] = 1`. -/
  | mulbitSelector
  deriving DecidableEq, Repr

/-- What a word decodes to (R55). -/
inductive Decoded where
  /-- The word spells this instruction. -/
  | instr (i : Instr)
  /-- The word spells no command. -/
  | illegal (why : Illegal)
  deriving DecidableEq, Repr

/-- A command that must have `sel = 00` (R45, R52). -/
def decodePlain (i : Instr) (sel : Sel) : Decoded :=
  if sel = 0b00#2 then .instr i else .illegal .selectorNotZero

/-- Opcode `0101`, the constant multiplier: the selector names the constant (R44, R46). -/
def decodeCmul (sel : Sel) : Decoded :=
  if sel = 0b00#2 then .instr .mul00
  else if sel = 0b01#2 then .instr .mul01
  else if sel = 0b10#2 then .instr .mul10
  else .instr .mul11

/-- Opcode `0110`, MULBIT: `sel[0]` is the bit and `sel[1]` must be 0 (R45, R50). -/
def decodeMulbit (sel : Sel) : Decoded :=
  if sel.getLsbD 1 then .illegal .mulbitSelector else .instr (.mulbit (sel.getLsbD 0))

/-- The decoder, total on all 256 words (R55). -/
def decode (cmd : Cmd) : Decoded :=
  if cmd.rsv ≠ 0b00#2 then .illegal .reservedBits
  else if cmd.op = 0b0000#4 then decodePlain .nop cmd.sel
  else if cmd.op = 0b0001#4 then decodePlain .clr cmd.sel
  else if cmd.op = 0b0010#4 then decodePlain .lds cmd.sel
  else if cmd.op = 0b0011#4 then decodePlain .ld cmd.sel
  else if cmd.op = 0b0100#4 then decodePlain .add cmd.sel
  else if cmd.op = 0b0101#4 then decodeCmul cmd.sel
  else if cmd.op = 0b0110#4 then decodeMulbit cmd.sel
  else if cmd.op = 0b0111#4 then decodePlain .mul cmd.sel
  else .illegal .reservedOpcode

/-- The word of an instruction, from R46's columns `op` and `sel`. -/
def encode : Instr → Cmd
  | .nop      => Cmd.ofFields 0b00#2 0b00#2 0b0000#4
  | .clr      => Cmd.ofFields 0b00#2 0b00#2 0b0001#4
  | .lds      => Cmd.ofFields 0b00#2 0b00#2 0b0010#4
  | .ld       => Cmd.ofFields 0b00#2 0b00#2 0b0011#4
  | .add      => Cmd.ofFields 0b00#2 0b00#2 0b0100#4
  | .mul00    => Cmd.ofFields 0b00#2 0b00#2 0b0101#4
  | .mul01    => Cmd.ofFields 0b00#2 0b01#2 0b0101#4
  | .mul10    => Cmd.ofFields 0b00#2 0b10#2 0b0101#4
  | .mul11    => Cmd.ofFields 0b00#2 0b11#2 0b0101#4
  | .mulbit b => Cmd.ofFields 0b00#2 (BitVec.ofBool false ++ BitVec.ofBool b) 0b0110#4
  | .mul      => Cmd.ofFields 0b00#2 0b00#2 0b0111#4

/-- The instruction of a word written as the opcode table numbers its bits. Every row of the table is one whole
8-bit command word (R56), bit 0 the least significant; a wider number is no command word. -/
def decodeTableWord (nbits w : Nat) : Option Instr :=
  if nbits ≤ 8 ∧ w < 2 ^ nbits then
    match decode (BitVec.ofNat 8 w) with
    | .instr i => some i
    | .illegal _ => none
  else none

end Sys2Proof
end

