-- ==== Sys2Proof/Machine/State.lean ====
section
/-! DEFINITION. The machine's state (10_state.md R20), the input ports (R19), the sticky model fault (60_exceptions.md
R114), the outcomes of a step, the state after reset and the state at power-on (R27). All plain data. -/

namespace Sys2Proof.Machine

/-- The values on the input ports at one rising edge (10_state.md R19, R20): one step's input. -/
structure StepInput where
  /-- Synchronous reset, active high. -/
  rst : Bool
  /-- Whether the command on `cmd` takes effect at this edge. -/
  cmdValid : Bool
  /-- The command word. -/
  cmd : Cmd
  /-- The operand bus. -/
  opnd : Element
  deriving DecidableEq, Repr

/-- The three contract violations (60_exceptions.md R114). -/
inductive FaultReason where
  /-- R115: the accepted word spells no command. -/
  | illegalCommand
  /-- R116: LD, ADD or MUL with `opnd[127] = 1`. -/
  | nonCanonicalOperand
  /-- R117: a command that reads `R` before anything has written it. -/
  | undefinedRead
  deriving DecidableEq, Repr

/-- The spec's `structure Fault` (R114): what the fault mark records. Named apart from `Fault` below, the host's word
for a step that stops. -/
structure FaultRecord where
  reason : FaultReason
  /-- The command word of the faulting step. -/
  cmd : Cmd
  /-- The operand bus of the faulting step. -/
  opnd : Element
  deriving DecidableEq, Repr

/-- The state. `r` and `fault` are the spec's (R20). `port` and `pending` are the model's own fields, no state of the
block: they hold the inputs R22's step takes, which the host supplies one per edge (R138; assumption 1). -/
structure State where
  /-- The element register `R`; none: nothing has written it since power-on (R15, R20, R25). -/
  r : Option Element
  /-- The sticky model fault mark (R20, R114). -/
  fault : Option FaultRecord
  /-- The input ports as sampled at the current edge (R19). -/
  port : StepInput
  /-- The inputs the host presents at the edges to come, the next one first (R138). -/
  pending : List StepInput
  deriving DecidableEq, Repr

/-- The host's reasons for a step that stops. The spec's own faults are no stop: they are a mark in the state (R114),
and the step that sets it is a next state (assumption 3). -/
inductive Fault where
  /-- Raised by `step` when no input is pending: the host supplies no further edge, and the run has ended (R138).
  Safe: nothing is claimed of an edge that does not come. -/
  | noEdge
  deriving DecidableEq, Repr

/-- The host's reasons for a step without meaning. -/
inductive Refusal where
  /-- Raised by an arm of `exec` whose instruction has no meaning yet; no arm is left so. Safe. -/
  | notModelled (mnemonic : String)
  deriving DecidableEq, Repr

/-- An idle edge: nothing is asked of the block (30_encoding.md R58). What the ports hold before the first step
is the model's choice; nothing but `eq` on that operand can see it (DESIGN CHOICE, assumption 5). -/
def StepInput.quiet : StepInput := { rst := false, cmdValid := false, cmd := 0, opnd := 0 }

/-- The state at power-on, before any reset (R27): `R` has no value and there is no fault. -/
def State.powerOn : State := { r := none, fault := none, port := .quiet, pending := [] }

/-- The state right after reset (R27, R132): `R` is the element 0. The fault mark is the one of power-on, which reset
does not change (assumption 5). -/
def State.reset : State := { r := some 0, fault := none, port := .quiet, pending := [] }

end Sys2Proof.Machine
end

