-- ==== Sys2Proof/Machine/Ops.lean ====
section
/-! DEFINITION. The operations every command is made of: reading and writing `R`, raising a model fault, reset, an idle
edge, and the host's driving of the ports. There is no memory (20_memory.md R31) and no return from a fault
(60_exceptions.md R119, R124). -/

namespace Sys2Proof.Machine

/-- What one step of this machine answers. -/
abbrev Result : Type := Host.Outcome State Fault Refusal

/-- `R <- e`, all 128 bits at once (00_scope.md R11, 10_state.md R21). -/
def State.setR (s : State) (e : Element) : State := { s with r := some e }

/-- The fault mark set for this edge's command and operand; nothing else changes (R114). -/
def State.raise (s : State) (reason : FaultReason) : State :=
  { s with fault := some { reason := reason, cmd := s.port.cmd, opnd := s.port.opnd } }

/-- The host drives the ports for the next edge (R138). -/
def State.drive (s : State) (p : StepInput) (later : List StepInput) : State :=
  { s with port := p, pending := later }

/-- `raise Fault(reason)`: the one way a model fault is taken (R114). The step answers a next state, with the
mark set (assumption 3). -/
def raiseFault (reason : FaultReason) (s : State) : Result := .next (s.raise reason)

/-- A step that ends by writing `R`. -/
def writeR (e : Element) (s : State) : Result := .next (s.setR e)

/-- A step that changes nothing: NOP (40_element_reg.md R61), an idle edge and an edge in a faulted state (R22). -/
def hold (s : State) : Result := .next s

/-- Read `R` for the command `k`; before any write this is the fault `UndefinedRead` (R22, R117). -/
def withR (k : Element → Result) (s : State) : Result :=
  match s.r with
  | some a => k a
  | none => raiseFault .undefinedRead s

/-- The reset edge: `R <- zero()` (70_reset_and_hazards.md R132). -/
def resetEdge (s : State) : Result := writeR 0 s

/-- The input of an accepted command with operand `opnd` (30_encoding.md R58). -/
def commandInput (cmd : Cmd) (opnd : Element) : StepInput :=
  { rst := false, cmdValid := true, cmd := cmd, opnd := opnd }

/-- The host presents this command, with operand 0, at the very next edge, ahead of the inputs already pending
(assumption 2). -/
def State.present (s : State) (cmd : Cmd) : State :=
  { s with pending := commandInput cmd 0 :: s.pending }

end Sys2Proof.Machine
end

