-- ==== Sys2Proof/Machine/Operands.lean ====
section
/-! DEFINITION. The operand forms of 30_encoding.md section 3 and the half-words of 00_scope.md R10. -/

namespace Sys2Proof.Machine

/-- `lo64(e) = e[63:0]` (R10). -/
def lo64 (e : Element) : Half := e.extractLsb' 0 64

/-- `hi64(e) = e[127:64]` (R10). -/
def hi64 (e : Element) : Half := e.extractLsb' 64 64

/-- The concatenation `{h, l}` of two half-words (R10). -/
def ofHalves (h l : Half) : Element := h ++ l

/-- `zext_128` of a half-word (R10). -/
def zext128 (v : Half) : Element := v.setWidth 128

/-- An element is canonical when bit 127 is 0 (R12). -/
abbrev Canonical (e : Element) : Prop := e.getLsbD 127 = false

/-- The small-integer operand of LDS, `opnd[63:0]` (R49). -/
def smallOperand (s : State) : Half := lo64 s.port.opnd

/-- Read `opnd` as an element for the command `k`; with bit 127 set this is the fault `NonCanonicalOperand`
(R48, 60_exceptions.md R116). -/
def withElement (k : Element → Result) (s : State) : Result :=
  if Canonical s.port.opnd then k s.port.opnd else raiseFault .nonCanonicalOperand s

end Sys2Proof.Machine
end

