-- ==== Sys2Proof/Machine/Add.lean ====
section
/-! DEFINITION. gf127_add and the ADD command (41_add.md). -/

namespace Sys2Proof.Machine

/-- `add(a, b)`: bitwise XOR (R71). -/
def add (a b : Element) : Element := a ^^^ b

/-- ADD (R72): `R <- add(R, opnd)`. The operand is checked before `R` is read (60_exceptions.md R118). -/
def execAdd (s : State) : Result :=
  withElement (fun b => withR (fun a => writeR (add a b) s) s) s

end Sys2Proof.Machine
end

