-- ==== Sys2Proof/Machine/ElementReg.lean ====
section
/-! DEFINITION. The element register's functions and commands (40_element_reg.md): zero, from_small_int; NOP, CLR, LDS, LD.
Each meaning is R22's arm for an accepted command: the guards of the step stand in Machine/Edge.lean. -/

namespace Sys2Proof.Machine

/-- `zero()`: all 128 bits 0 (R65; 90_conflicts.md C7). -/
def zero : Element := 0

/-- `from_small_int(v) = {0^64, v}` (R66). -/
def fromSmallInt (v : Half) : Element := ofHalves 0 v

/-- NOP (R61): the state is unchanged, whether or not `R` has a value. -/
def execNop (s : State) : Result := hold s

/-- CLR (R62): `R <- zero()`. -/
def execClr (s : State) : Result := writeR zero s

/-- LDS (R63): `R <- from_small_int(opnd[63:0])`; `opnd[127:64]` is ignored and nothing faults. -/
def execLds (s : State) : Result := writeR (fromSmallInt (smallOperand s)) s

/-- LD (R64): `R <- opnd`, for a canonical operand. -/
def execLd (s : State) : Result := withElement (fun e => writeR e s) s

end Sys2Proof.Machine
end

