-- ==== Sys2Proof/Machine/ConstMult.lean ====
section
/-! DEFINITION. gf127_const_mult_x0_x1_x2_x3_mux and mul_bit, with their commands (42_const_mult.md). -/

namespace Sys2Proof.Machine

/-- `mul_00(a) = zero()` (R78). -/
def mul00 (_a : Element) : Element := zero

/-- `mul_01(a) = a` (R78). -/
def mul01 (a : Element) : Element := a

/-- `mul_10(a)`, doubling: multiply by x and reduce, bit for bit as R79. The overflow is input bit 126
(90_conflicts.md C1). -/
def mul10 (a : Element) : Element :=
  let l  := lo64 a
  let h  := hi64 a
  let l1 := l <<< 1
  let h1 := (h <<< 1) ||| (if l.getLsbD 63 then 1#64 else 0#64)
  let ov := a.getLsbD 126
  let h2 := h1 &&& 0x7fffffffffffffff#64
  let l2 := l1 ^^^ (if ov then 0x8000000000000001#64 else 0#64)
  ofHalves h2 l2

/-- `mul_11(a) = add(mul_01(a), mul_10(a))` (R81). -/
def mul11 (a : Element) : Element := add (mul01 a) (mul10 a)

/-- The four-way multiplexer (R77); the selector codes are R44's. -/
def cmul (sel : Sel) (a : Element) : Element :=
  if sel = 0b00#2 then mul00 a
  else if sel = 0b01#2 then mul01 a
  else if sel = 0b10#2 then mul10 a
  else mul11 a

/-- `mul_bit(a, bit)` (R82; 90_conflicts.md C2). -/
def mulBit (a : Element) (bit : Bool) : Element := if bit then a else zero

/-- MUL00 (R83): the result is the same for every content of `R`, so `R` is not read (D22). -/
def execMul00 (s : State) : Result := writeR zero s

/-- MUL01 (R84): `R <- mul_01(R)`; unlike NOP it reads `R`. -/
def execMul01 (s : State) : Result := withR (fun a => writeR (cmul 0b01#2 a) s) s

/-- MUL10 (R85): `R <- mul_10(R)`. -/
def execMul10 (s : State) : Result := withR (fun a => writeR (cmul 0b10#2 a) s) s

/-- MUL11 (R86): `R <- mul_11(R)`. -/
def execMul11 (s : State) : Result := withR (fun a => writeR (cmul 0b11#2 a) s) s

/-- MULBIT b (R88): `R` is read only when b = 1. -/
def execMulbit (b : Bool) (s : State) : Result :=
  if b then withR (fun a => writeR (mulBit a true) s) s else writeR zero s

end Sys2Proof.Machine
end

