-- ==== Sys2Proof/Machine/MultKaratsuba.lean ====
section
/-! DEFINITION. The carry-less multiply primitive and the Karatsuba unit (43_mult_karatsuba.md). They have no command of
their own: MUL uses them (44_reduce_mul.md R105). -/

namespace Sys2Proof.Machine

/-- Row j of the schoolbook carry-less product: `a` shifted left by j where `b[j] = 1`, else 0. -/
def clmulRow (a b : Half) (j : Nat) : Element := if b.getLsbD j then zext128 a <<< j else 0

/-- The XOR of the `2^k` rows from row `j` on, as a tree. R91 gives the product bit by bit, as an XOR-convolution; only
the value is normative (10_state.md R18, D29; assumption 9). -/
def clmulTree (a b : Half) : Nat → Nat → Element
  | 0, j => clmulRow a b j
  | k + 1, j => clmulTree a b k j ^^^ clmulTree a b k (j + 2 ^ k)

/-- `clmul64(a, b)`: the carry-less 64×64→128 product, the XOR of its 64 rows (R91). -/
def clmul64 (a b : Half) : Element := clmulTree a b 6 0

/-- The half a selector bit picks: 0 the low one, 1 the high one (30_encoding.md R47, D18). -/
def halfOf (a : Element) (h : Bool) : Half := if h then hi64 a else lo64 a

/-- `clmul_sel(A, B, ha, hb)`: the primitive's half-selecting interface (R92). -/
def clmulSel (a b : Element) (ha hb : Bool) : Element := clmul64 (halfOf a ha) (halfOf b hb)

/-- R95's `lo = a0 * b0`. -/
def karatsubaLo (a b : Element) : Element := clmulSel a b false false

/-- R95's `hi = a1 * b1`. -/
def karatsubaHi (a b : Element) : Element := clmulSel a b true true

/-- R95's `mid`, the cross term by one multiply. -/
def karatsubaMid (a b : Element) : Element :=
  clmul64 (lo64 a ^^^ hi64 a) (lo64 b ^^^ hi64 b) ^^^ karatsubaLo a b ^^^ karatsubaHi a b

/-- `karatsuba(a, b) = (lo', hi')`, the unreduced product in two words (R95). -/
def karatsuba (a b : Element) : Element × Element :=
  (karatsubaLo a b ^^^ ofHalves (lo64 (karatsubaMid a b)) 0,
   karatsubaHi a b ^^^ zext128 (hi64 (karatsubaMid a b)))

end Sys2Proof.Machine
end

