-- ==== Sys2Proof/Machine/ReduceMul.lean ====
section
/-! DEFINITION. gf127_reduce_mod_poly, the general multiplier and the MUL command (44_reduce_mul.md). -/

namespace Sys2Proof.Machine

/-- R102's intermediate `T`: `{hi, lo}` folded to degree at most 127. -/
def reduceFold (lo hi : Element) : Element :=
  lo ^^^ (hi <<< 1)
    ^^^ ofHalves (lo64 hi) 0
    ^^^ ofHalves (hi64 hi) 0
    ^^^ (zext128 (hi64 hi) <<< 1)
    ^^^ (if hi.getLsbD 127 then 0x00000000000000010000000000000002#128 else 0)

/-- `reduce(lo, hi)` by the reference datapath of R102; its result is what R101 demands (assumption 9). -/
def reduce (lo hi : Element) : Element :=
  reduceFold lo hi ^^^
    (if (reduceFold lo hi).getLsbD 127 then 0x80000000000000008000000000000001#128 else 0)

/-- `mul(a, b) = reduce(karatsuba(a, b))` (R104). -/
def mul (a b : Element) : Element := reduce (karatsuba a b).1 (karatsuba a b).2

/-- MUL (R105): `R <- mul(R, opnd)`. The operand is checked before `R` is read (60_exceptions.md R118). -/
def execMul (s : State) : Result :=
  withElement (fun b => withR (fun a => writeR (mul a b) s) s) s

end Sys2Proof.Machine
end

