-- ==== Sys2Proof/Machine/Dispatch.lean ====
section
/-! DEFINITION. One arm per instruction: the arms of the step function of 10_state.md R22. -/

namespace Sys2Proof.Machine

def exec (i : Instr) (s : State) : Host.Outcome State Fault Refusal :=
  match i with
  -- 40_element_reg.md
  | .nop => Sys2Proof.Machine.execNop s
  | .clr => Sys2Proof.Machine.execClr s
  | .lds => Sys2Proof.Machine.execLds s
  | .ld => Sys2Proof.Machine.execLd s
  -- 41_add.md
  | .add => Sys2Proof.Machine.execAdd s
  -- 42_const_mult.md
  | .mul00 => Sys2Proof.Machine.execMul00 s
  | .mul01 => Sys2Proof.Machine.execMul01 s
  | .mul10 => Sys2Proof.Machine.execMul10 s
  | .mul11 => Sys2Proof.Machine.execMul11 s
  | .mulbit b => Sys2Proof.Machine.execMulbit b s
  -- 44_reduce_mul.md
  | .mul => Sys2Proof.Machine.execMul s

end Sys2Proof.Machine
end

