-- ==== Sys2Proof/Machine/Edge.lean ====
section
/-! DEFINITION. One rising edge: the step function of 10_state.md R22 with the priority of 60_exceptions.md R118, on the ports
as they stand in `State.port`. -/

namespace Sys2Proof.Machine

/-- An accepted step (`rst = 0`, `cmd_valid = 1`): decode the word and run it, or fault on an illegal one (R22, R115). -/
def acceptCommand (s : State) : Result :=
  match decode s.port.cmd with
  | .instr i => exec i s
  | .illegal _ => raiseFault .illegalCommand s

/-- One edge (R22): a faulted state is quiescent (R119), then reset, then idle, then the command (R118). -/
def clockEdge (s : State) : Result :=
  match s.fault with
  | some _ => hold s
  | none =>
    if s.port.rst then resetEdge s
    else if s.port.cmdValid then acceptCommand s
    else hold s

end Sys2Proof.Machine
end

