-- ==== Sys2Proof/Machine/Step.lean ====
section
/-! DEFINITION. The host's step: the host drives the next input it has and the block takes one edge (10_state.md R21,
70_reset_and_hazards.md R138); and how the host's checker places one command. -/

namespace Sys2Proof.Machine

/-- One step: take the next pending input onto the ports, then one edge. With no input pending there is no edge, and the
run has ended (assumption 1). -/
def step (s : State) : Host.Outcome State Fault Refusal :=
  match s.pending with
  | [] => .fault .noEdge
  | p :: later => clockEdge (s.drive p later)

/-- `s` with the command word `w` presented at the very next edge, its operand bus all 0 (assumption 2). The block fetches
nothing (10_state.md R17): a command comes from the host. -/
def State.withFetchWord (s : State) (_nbits w : Nat) : State := s.present (BitVec.ofNat 8 w)

end Sys2Proof.Machine
end

