-- ==== Sys2Proof/Machine/Flags.lean ====
section
/-! DEFINITION. The block has no flags and no command writes one (10_state.md R18). What it shows the host instead are the
combinational outputs `q` (R23) and `eq` (R24): functions of the state, which reading does not change (20_memory.md R36). -/

namespace Sys2Proof.Machine

/-- `equals(a, b)`: all 128 bits match, both half-words (40_element_reg.md R67). -/
def equals (a b : Element) : Bool := lo64 a == lo64 b && hi64 a == hi64 b

/-- The output `q`: the value of `R` (R23). It has no value while `R` has none, and a faulted state shows none a claim
may use (R23, R114). -/
def State.q (s : State) : Option Element :=
  match s.fault with
  | none => s.r
  | some _ => none

/-- The output `eq` with `opnd` on the bus: `equals(R, opnd)`, bit 127 included, and never a fault (R24, R68; 90_conflicts.md
C4). It has a value exactly when `q` has (in a faulted state DEDUCED: what the chip's `R` then holds is not fixed,
93_implementation_defined.md U8; assumption 6). -/
def State.eq (s : State) (opnd : Element) : Option Bool := s.q.map (equals · opnd)

end Sys2Proof.Machine
end

