-- ==== Sys2Proof/Machine/Assembler.lean ====
section
/-! DEFINITION. The command programs of 30_encoding.md section 6: lines, pseudo-instructions and their step inputs (R57,
R58), the EXPECT checks, and the text form of a line. No step reads this file: it says what the host presents. -/

namespace Sys2Proof.Machine

/-- One line that is a step (R57, R58). -/
inductive Line where
  /-- `NOP`. -/
  | nop
  /-- `CLR`. -/
  | clr
  /-- `LDS <u64>`. -/
  | lds (v : Half)
  /-- `LD <elem>`. -/
  | ld (e : Element)
  /-- `ADD <elem>`. -/
  | add (e : Element)
  /-- `MUL00`. -/
  | mul00
  /-- `MUL01`. -/
  | mul01
  /-- `MUL10`. -/
  | mul10
  /-- `MUL11`. -/
  | mul11
  /-- `MULBIT <0|1>`. -/
  | mulbit (b : Bool)
  /-- `MUL <elem>`. -/
  | mul (e : Element)
  /-- `RST`. -/
  | rst
  /-- `IDLE`. -/
  | idle
  /-- `ZERO`. -/
  | zero
  /-- `ONE`. -/
  | one
  /-- `DBL`. -/
  | dbl
  /-- `CMUL <sel>`. -/
  | cmul (sel : Sel)
  deriving DecidableEq, Repr

/-- The constant multiplier a selector names (R44, R58). -/
def cmulLine (sel : Sel) : Line :=
  if sel = 0b00#2 then .mul00
  else if sel = 0b01#2 then .mul01
  else if sel = 0b10#2 then .mul10
  else .mul11

/-- A pseudo-instruction's expansion; RST and IDLE are no command and stand for themselves (R58). -/
def Line.expand : Line → Line
  | .zero => .clr
  | .one => .lds 1
  | .dbl => .mul10
  | .cmul sel => cmulLine sel
  | l => l

/-- The step input of an expanded line. Every port value R57 and R58 leave open ("any") is the one on `bus`, which the
caller gives. -/
def Line.plainInput (bus : StepInput) : Line → StepInput
  | .nop => commandInput (encode .nop) bus.opnd
  | .clr => commandInput (encode .clr) bus.opnd
  | .mul00 => commandInput (encode .mul00) bus.opnd
  | .mul01 => commandInput (encode .mul01) bus.opnd
  | .mul10 => commandInput (encode .mul10) bus.opnd
  | .mul11 => commandInput (encode .mul11) bus.opnd
  | .mulbit b => commandInput (encode (.mulbit b)) bus.opnd
  | .lds v => commandInput (encode .lds) (zext128 v)
  | .ld e => commandInput (encode .ld) e
  | .add e => commandInput (encode .add) e
  | .mul e => commandInput (encode .mul) e
  | .rst => { bus with rst := true }
  | .idle | .zero | .one | .dbl | .cmul _ => { bus with rst := false, cmdValid := false }

/-- The step input of a line (R57, R58). -/
def Line.input (bus : StepInput) (l : Line) : StepInput := l.expand.plainInput bus

/-- A host check: an observation of the outputs after the previous step, no step of its own (R58). -/
inductive Check where
  /-- `EXPECT q = <elem>`. -/
  | q (e : Element)
  /-- `EXPECT eq(<elem>) = <0|1>`. -/
  | eq (opnd : Element) (value : Bool)
  deriving DecidableEq, Repr

/-- Whether the check holds of the state it is made in (R58, 10_state.md R23, R24). -/
def Check.holds (s : State) : Check → Bool
  | .q e => s.q == some e
  | .eq opnd value => s.eq opnd == some value

/-! ### The text of a line (R57, 00_scope.md R13) -/

/-- A decimal digit's value. -/
def decDigit (c : Char) : Option Nat :=
  if 48 ≤ c.toNat ∧ c.toNat ≤ 57 then some (c.toNat - 48) else none

/-- A hexadecimal digit's value; digits are lowercase (R13). -/
def hexDigit (c : Char) : Option Nat :=
  if 97 ≤ c.toNat ∧ c.toNat ≤ 102 then some (c.toNat - 87) else decDigit c

/-- The number the digits spell, most significant first, continuing from `acc`. -/
def digits (base : Nat) (digit : Char → Option Nat) (acc : Nat) : List Char → Option Nat
  | [] => some acc
  | c :: cs =>
    match digit c with
    | some d => digits base digit (acc * base + d) cs
    | none => none

/-- Between 1 and `most` hexadecimal digits. -/
def hexNumber (most : Nat) (cs : List Char) : Option Nat :=
  if cs ≠ [] ∧ cs.length ≤ most then digits 16 hexDigit 0 cs else none

/-- `<u64>`: `0x` and 1 to 16 hex digits, or a decimal number below 2^64 (R57). A wider value is refused here, before it
could reach the port (40_element_reg.md R66, D27). -/
def parseU64 : List Char → Option Half
  | '0' :: 'x' :: cs => (hexNumber 16 cs).map (BitVec.ofNat 64)
  | cs =>
    match (if cs = [] then none else digits 10 decDigit 0 cs) with
    | some n => if n < 2 ^ 64 then some (BitVec.ofNat 64 n) else none
    | none => none

/-- `<elem>`: `0x<16 hex>_<16 hex>`, or `0x` and 1 to 32 hex digits, zero-extended on the left (R57, R13). -/
def parseElem : List Char → Option Element
  | '0' :: 'x' :: cs =>
    if cs.length = 33 ∧ cs[16]? = some '_' then
      (hexNumber 32 (cs.take 16 ++ cs.drop 17)).map (BitVec.ofNat 128)
    else (hexNumber 32 cs).map (BitVec.ofNat 128)
  | _ => none

/-- `<0|1>`. -/
def parseBit : List Char → Option Bool
  | ['0'] => some false
  | ['1'] => some true
  | _ => none

/-- A selector of CMUL: two binary digits (R58). -/
def parseSel : List Char → Option Sel
  | ['0', '0'] => some 0b00
  | ['0', '1'] => some 0b01
  | ['1', '0'] => some 0b10
  | ['1', '1'] => some 0b11
  | _ => none

/-- The line without its comment, which `;` starts (R57). -/
def dropComment (cs : List Char) : List Char := cs.takeWhile (· != ';')

/-- The line's words: the runs of characters between blanks. `word` holds the word being read, reversed. -/
def wordsFrom (word : List Char) : List Char → List (List Char)
  | [] => if word = [] then [] else [word.reverse]
  | c :: cs =>
    if c = ' ' ∨ c = '\t' then
      if word = [] then wordsFrom [] cs else word.reverse :: wordsFrom [] cs
    else wordsFrom (c :: word) cs

/-- A line that is a mnemonic alone (R57, R58); mnemonics are upper case. -/
def bareLines : List (List Char × Line) :=
  [(['N', 'O', 'P'], .nop),
   (['C', 'L', 'R'], .clr),
   (['M', 'U', 'L', '0', '0'], .mul00),
   (['M', 'U', 'L', '0', '1'], .mul01),
   (['M', 'U', 'L', '1', '0'], .mul10),
   (['M', 'U', 'L', '1', '1'], .mul11),
   (['R', 'S', 'T'], .rst),
   (['I', 'D', 'L', 'E'], .idle),
   (['Z', 'E', 'R', 'O'], .zero),
   (['O', 'N', 'E'], .one),
   (['D', 'B', 'L'], .dbl)]

/-- A line of a mnemonic and its operand (R57, R58). -/
def operandLine (mnemonic operand : List Char) : Option Line :=
  if mnemonic = ['L', 'D', 'S'] then (parseU64 operand).map Line.lds
  else if mnemonic = ['L', 'D'] then (parseElem operand).map Line.ld
  else if mnemonic = ['A', 'D', 'D'] then (parseElem operand).map Line.add
  else if mnemonic = ['M', 'U', 'L'] then (parseElem operand).map Line.mul
  else if mnemonic = ['M', 'U', 'L', 'B', 'I', 'T'] then
    (parseBit operand).map Line.mulbit
  else if mnemonic = ['C', 'M', 'U', 'L'] then (parseSel operand).map Line.cmul
  else none

/-- The observed side of an EXPECT check and its value (R58). -/
def parseCheck (observed value : List Char) : Option Check :=
  match observed with
  | ['q'] => (parseElem value).map Check.q
  | 'e' :: 'q' :: '(' :: cs =>
    if cs.getLast? = some ')' then
      match parseElem cs.dropLast, parseBit value with
      | some e, some b => some (.eq e b)
      | _, _ => none
    else none
  | _ => none

/-- What one line of a program is (R57, R58). -/
inductive SourceLine where
  /-- Nothing but blanks and a comment. -/
  | blank
  /-- A step. -/
  | line (l : Line)
  /-- An EXPECT check. -/
  | check (c : Check)
  deriving DecidableEq, Repr

/-- Read one line of a command program; none: it is not of the form R57 and R58 give. -/
def parseLine (cs : List Char) : Option SourceLine :=
  match wordsFrom [] (dropComment cs) with
  | [] => some .blank
  | [mnemonic] => (bareLines.lookup mnemonic).map SourceLine.line
  | [mnemonic, operand] => (operandLine mnemonic operand).map SourceLine.line
  | [expect, observed, equal, value] =>
    if expect = ['E', 'X', 'P', 'E', 'C', 'T'] ∧ equal = ['='] then
      (parseCheck observed value).map SourceLine.check
    else none
  | _ => none

end Sys2Proof.Machine
end

