-- ==== Sys2Proof/Machine/Poly.lean ====
section
/-! DEFINITION. The mathematics the rules are stated in (00_scope.md R2, R10): polynomials over GF(2). Only claims use
this file; no step does. -/

namespace Sys2Proof.Machine

/-- `poly(v)`: the polynomial over GF(2) whose coefficient of x^i is bit i of `v` (R10). -/
noncomputable def poly {n : Nat} (v : BitVec n) : Polynomial (ZMod 2) :=
  ∑ i ∈ Finset.range n, if v.getLsbD i then Polynomial.X ^ i else 0

/-- `f(x) = x^127 + x^63 + 1`, the modulus (R2). -/
noncomputable def modulus : Polynomial (ZMod 2) := Polynomial.X ^ 127 + Polynomial.X ^ 63 + 1

/-- `p mod f`, the remainder of polynomial division (R10). -/
noncomputable def modF (p : Polynomial (ZMod 2)) : Polynomial (ZMod 2) := p %ₘ modulus

/-- `v = bits_n(p)`: bit i of `v` is the coefficient of x^i in `p`, for `deg p < n` (R10). -/
def IsBits {n : Nat} (v : BitVec n) (p : Polynomial (ZMod 2)) : Prop :=
  p.degree < n ∧ ∀ i < n, v.getLsbD i = true ↔ p.coeff i = 1

end Sys2Proof.Machine
end

