-- ==== Sys2Proof/Safety.lean ====
section
/-! DEFINITION. What counts as a safe run: the representation invariant (10_state.md R26), the host's duties
(70_reset_and_hazards.md R134, R139), and a run with its end (R138). -/

namespace Sys2Proof.Machine

/-- R26: what `R` holds, where it holds a value, is canonical. -/
def State.Inv (s : State) : Prop := ∀ e, s.r = some e → Canonical e

/-- `R` has been made defined (R134, step 1) and no fault stands: the state a well-behaved host works in. -/
def State.Ready (s : State) : Prop := s.fault = none ∧ ∃ e, s.r = some e ∧ Canonical e

/-- The host's duty for one edge (R134, step 2; R139): a reset or idle edge is free of duties; an accepted command is
legal, and canonical where it reads an element. -/
def StepInput.dutiful (p : StepInput) : Bool :=
  p.rst || !p.cmdValid ||
    match decode p.cmd with
    | .instr i => i.wellFormed p.opnd
    | .illegal _ => false

/-- An edge that makes `R` defined from power-on (R134, step 1): a reset, or a command that does not read `R` and writes
it: CLR, LDS, LD, MUL00, MULBIT 0. -/
def StepInput.boots (p : StepInput) : Bool :=
  p.rst || (p.cmdValid && [encode .clr, encode .lds, encode .ld, encode .mul00, encode (.mulbit false)].contains p.cmd)

/-- A run (R138): the host supplies these inputs, one per edge, until none is left. A step that stops leaves the state it
stopped in; `step` stops only where no input is pending. -/
def runInputs (s : State) : List StepInput → State
  | [] => s
  | p :: later =>
    match step { s with pending := [p] } with
    | .next t => runInputs t later
    | .fault _ => s
    | .refused _ => s

/-- A run ends well only in a state with no fault in which `R` has a value (R138). -/
def State.endedWell (s : State) : Prop := s.fault = none ∧ s.r ≠ none

end Sys2Proof.Machine
end

