-- ==== Sys2Proof/Certificates/Slice0/Obligations.lean ====
section
/-! DEFINITION. The statements made of this model for the provers; OBLIGATIONS.json says of each which rule it formalises. -/

open Sys2Proof Sys2Proof.Machine Polynomial

/-! ### Encoding (30_encoding.md) -/

/-- Every instruction's word decodes to that instruction, its operand bit included (R46, R55). -/
def Obligations.DecodeOfEncodeIsTheInstruction : Prop :=
  ∀ i : Instr, decode (encode i) = .instr i

/-- A word that decodes to an instruction is that instruction's own word: no two words share a meaning (R46, R54). -/
def Obligations.DecodedWordIsTheEncoding : Prop :=
  ∀ (cmd : Cmd) (i : Instr), decode cmd = .instr i → cmd = encode i

/-- The words of R46, written out bit by bit, decode to the instructions they stand for. -/
def Obligations.WordsOfTheOpcodeMapDecode : Prop :=
  decode 0b00000000#8 = .instr .nop ∧ decode 0b00000001#8 = .instr .clr ∧
  decode 0b00000010#8 = .instr .lds ∧ decode 0b00000011#8 = .instr .ld ∧
  decode 0b00000100#8 = .instr .add ∧ decode 0b00000101#8 = .instr .mul00 ∧
  decode 0b00010101#8 = .instr .mul01 ∧ decode 0b00100101#8 = .instr .mul10 ∧
  decode 0b00110101#8 = .instr .mul11 ∧ decode 0b00000110#8 = .instr (.mulbit false) ∧
  decode 0b00010110#8 = .instr (.mulbit true) ∧ decode 0b00000111#8 = .instr .mul

/-- R52: the decoder refuses exactly the words the rule lists, and an accepted step that carries one raises
`IllegalCommand`. -/
def Obligations.IllegalWordsAreRefusedAndFault : Prop :=
  ∀ cmd : Cmd,
    ((∃ why, decode cmd = .illegal why) ↔
      (cmd.extractLsb' 6 2 ≠ 0b00#2 ∨
       8 ≤ (cmd.extractLsb' 0 4).toNat ∨
       (cmd.extractLsb' 0 4 ∈ [0b0000#4, 0b0001#4, 0b0010#4, 0b0011#4, 0b0100#4, 0b0111#4] ∧
          cmd.extractLsb' 4 2 ≠ 0b00#2) ∨
       (cmd.extractLsb' 0 4 = 0b0110#4 ∧ cmd.getLsbD 5 = true))) ∧
    ∀ (s : State) (p : StepInput) (later : List StepInput) (why : Illegal),
      s.fault = none → s.pending = p :: later → p.rst = false → p.cmdValid = true → p.cmd = cmd →
      decode cmd = .illegal why →
      step s = .next { s with
        fault := some { reason := .illegalCommand, cmd := cmd, opnd := p.opnd }
        port := p
        pending := later }

/-- R54: 12 of the 256 words are legal, the other 244 are illegal, and the 12 encode the 11 instructions, MULBIT by
two words. -/
def Obligations.TwelveOfTheWordsAreLegal : Prop :=
  ((List.range 256).countP fun n =>
    match decode (BitVec.ofNat 8 n) with
    | .instr _ => true
    | .illegal _ => false) = 12 ∧
  ((List.range 256).countP fun n =>
    match decode (BitVec.ofNat 8 n) with
    | .instr _ => false
    | .illegal _ => true) = 244 ∧
  (∀ i : Instr, ∃ cmd, decode cmd = .instr i) ∧
  (∀ (i : Instr) (c d : Cmd), decode c = .instr i → decode d = .instr i → c = d) ∧
  encode (.mulbit false) ≠ encode (.mulbit true)

/-- R58: the pseudo-instructions' step inputs, the real command lines, and the EXPECT check as an observation. -/
def Obligations.PseudoInstructionsExpandAsListed : Prop :=
  (∀ bus, (Line.rst.input bus).rst = true) ∧
  (∀ bus, (Line.idle.input bus).rst = false ∧ (Line.idle.input bus).cmdValid = false) ∧
  (∀ bus, Line.zero.input bus = Line.clr.input bus ∧ (Line.zero.input bus).cmd = 0x01#8) ∧
  (∀ bus, Line.one.input bus = (Line.lds 1).input bus ∧ (Line.one.input bus).cmd = 0x02#8 ∧
    (Line.one.input bus).opnd.extractLsb' 0 64 = 1#64) ∧
  (∀ bus, Line.dbl.input bus = Line.mul10.input bus ∧ (Line.dbl.input bus).cmd = 0x25#8) ∧
  (∀ bus sel, ((Line.cmul sel).input bus).cmd = (0b00#2 ++ sel) ++ 0b0101#4) ∧
  (∀ (bus : StepInput) (l : Line), l ≠ .rst → l ≠ .idle → (l.input bus).rst = false ∧ (l.input bus).cmdValid = true) ∧
  (∀ s e, (Check.q e).holds s = true ↔ s.q = some e) ∧
  (∀ s opnd b, (Check.eq opnd b).holds s = true ↔ s.eq opnd = some b)

/-! ### The step (10_state.md, 60_exceptions.md, 70_reset_and_hazards.md) -/

/-- R118, row by row: in one step the first matching condition decides. -/
def Obligations.FirstMatchingRowDecidesTheStep : Prop :=
  ∀ (s : State) (p : StepInput) (later : List StepInput), s.pending = p :: later →
    -- 1: an earlier fault
    (s.fault ≠ none → step s = .next { s with port := p, pending := later }) ∧
    (s.fault = none →
      -- 2: reset
      (p.rst = true → step s = .next { s with r := some 0, port := p, pending := later }) ∧
      -- 3: idle
      (p.rst = false → p.cmdValid = false → step s = .next { s with port := p, pending := later }) ∧
      (p.rst = false → p.cmdValid = true →
        -- 4: an illegal word
        (∀ why, decode p.cmd = .illegal why →
          step s = .next { s with
            fault := some { reason := .illegalCommand, cmd := p.cmd, opnd := p.opnd }
            port := p
            pending := later }) ∧
        (∀ i, decode p.cmd = .instr i →
          -- 5: a non-canonical element operand
          (i ∈ [Instr.ld, .add, .mul] → p.opnd.getLsbD 127 = true →
            step s = .next { s with
              fault := some { reason := .nonCanonicalOperand, cmd := p.cmd, opnd := p.opnd }
              port := p
              pending := later }) ∧
          (¬(i ∈ [Instr.ld, .add, .mul] ∧ p.opnd.getLsbD 127 = true) →
            -- 6: an undefined register
            (i ∈ [Instr.add, .mul01, .mul10, .mul11, .mulbit true, .mul] → s.r = none →
              step s = .next { s with
                fault := some { reason := .undefinedRead, cmd := p.cmd, opnd := p.opnd }
                port := p
                pending := later }) ∧
            -- 7: the command's rule
            (¬(i ∈ [Instr.add, .mul01, .mul10, .mul11, .mulbit true, .mul] ∧ s.r = none) →
              step s = exec i { s with port := p, pending := later } ∧
              ∃ t, step s = .next t ∧ t.fault = none)))))

/-- A step runs the decoded instruction: on an accepted command `step` is `exec` of it, on the state in which the input
has moved from the pending inputs to the ports (R22). -/
def Obligations.StepRunsTheDecodedInstruction : Prop :=
  ∀ (s : State) (p : StepInput) (later : List StepInput) (i : Instr),
    s.fault = none → s.pending = p :: later → p.rst = false → p.cmdValid = true → decode p.cmd = .instr i →
    step s = exec i { s with port := p, pending := later }

/-- Every step the host supplies an input for answers a next state, whatever the state and the input, and takes that
input off the pending ones (R138: every step is enabled in every state). -/
def Obligations.EverySuppliedStepIsEnabled : Prop :=
  ∀ (s : State) (p : StepInput) (later : List StepInput), s.pending = p :: later →
    ∃ t, step s = .next t ∧ t.port = p ∧ t.pending = later

/-- With no input pending there is no edge: the step stops by name. The MODEL's choice (assumption 1). -/
def Obligations.NoPendingInputIsTheEndOfTheRun : Prop :=
  ∀ s : State, step s = .fault .noEdge ↔ s.pending = []

/-- R119: a fault is sticky and quiescent; no later step, reset or command, changes `R` or the fault, and no such state
ends a run well. -/
def Obligations.FaultIsStickyAndQuiescent : Prop :=
  ∀ (s : State) (f : FaultRecord), s.fault = some f →
    (∀ p later, s.pending = p :: later → step s = .next { s with port := p, pending := later }) ∧
    ∀ inputs, (runInputs s inputs).fault = some f ∧ (runInputs s inputs).r = s.r ∧
      ¬(runInputs s inputs).endedWell

/-- R132: at an edge with `rst = 1` the register becomes 0 whatever the other inputs are, no command runs and none
faults, and several such edges give the same. -/
def Obligations.ResetEdgeLoadsZero : Prop :=
  ∀ s : State, s.fault = none →
    (∀ p later, s.pending = p :: later → p.rst = true →
      step s = .next { s with r := some 0, port := p, pending := later } ∧
      State.q { s with r := some 0, port := p, pending := later } = some 0) ∧
    ∀ inputs : List StepInput, inputs ≠ [] → (∀ p ∈ inputs, p.rst = true) →
      (runInputs s inputs).r = some 0 ∧ (runInputs s inputs).fault = none ∧ (runInputs s inputs).q = some 0

/-- R131, its last sentence but one: with `rst` low, holding `cmd_valid = 0` keeps `R` for any number of edges, whatever
is on `cmd` and `opnd`, and faults nothing. -/
def Obligations.IdleEdgesKeepTheRegister : Prop :=
  ∀ (s : State) (inputs : List StepInput), (∀ p ∈ inputs, p.rst = false ∧ p.cmdValid = false) →
    (runInputs s inputs).r = s.r ∧ (runInputs s inputs).fault = s.fault

/-- The state after reset and the state at power-on are the ones R27 gives, and both meet the invariant of R26. The
values of the model's own fields `port` and `pending` are not stated (assumption 5). -/
def Obligations.ResetAndPowerOnMeetTheInvariant : Prop :=
  (State.reset.r = some 0 ∧ State.reset.fault = none ∧ State.reset.q = some 0 ∧ State.reset.Inv) ∧
  (State.powerOn.r = none ∧ State.powerOn.fault = none ∧ State.powerOn.q = none ∧ State.powerOn.Inv)

/-- Every step keeps the representation invariant: bit 127 of `R` is 0 (R26). -/
def Obligations.EveryStepKeepsTheRegisterCanonical : Prop :=
  ∀ s t : State, s.Inv → step s = .next t → t.Inv

/-- R26: in every state a run reaches from power-on, or from any state in which the register is canonical, with no fault,
the register has no value or a canonical one. -/
def Obligations.EveryReachedRegisterIsCanonical : Prop :=
  (∀ inputs, (runInputs State.powerOn inputs).fault = none →
    (runInputs State.powerOn inputs).r = none ∨
      ∃ e, (runInputs State.powerOn inputs).r = some e ∧ e.getLsbD 127 = false) ∧
  (∀ (s : State) (e₀ : Element) inputs, s.r = some e₀ → e₀.getLsbD 127 = false →
    (runInputs s inputs).fault = none →
      (runInputs s inputs).r = none ∨ ∃ e, (runInputs s inputs).r = some e ∧ e.getLsbD 127 = false)

/-- A host that keeps its duties (R134, R139) never meets a fault: every step it supplies answers a state that is ready
again, `R` defined and canonical, with only dutiful inputs left. -/
def Obligations.DutifulHostNeverMeetsAFault : Prop :=
  ∀ s : State, s.Ready → (∀ p ∈ s.pending, p.dutiful = true) → s.pending ≠ [] →
    ∃ t, step s = .next t ∧ t.Ready ∧ ∀ p ∈ t.pending, p.dutiful = true

/-- R134: one reset edge, or one accepted CLR, LDS, LD of a canonical element, MUL00 or MULBIT 0, makes `R` defined; from
then on it stays defined and canonical in every run without a fault. -/
def Obligations.BootMakesTheRegisterDefinedForGood : Prop :=
  (∀ (s : State) (p : StepInput) (later : List StepInput),
    s.fault = none → s.pending = p :: later → p.boots = true → p.dutiful = true →
    ∃ t, step s = .next t ∧ t.Ready) ∧
  (∀ (s : State) (inputs : List StepInput), s.Ready → (runInputs s inputs).fault = none →
    (runInputs s inputs).Ready)

/-- R138, R39: stepping the machine through the inputs it has pending is the run of those inputs, in their order; and a run
of one list and then another is the run of the two together. -/
def Obligations.StepsOfThePendingInputsAreTheRun : Prop :=
  (∀ s : State, ∃ t : State, Host.Core.run core s.pending.length s = .next t ∧ t.pending = [] ∧
    t.r = (runInputs s s.pending).r ∧ t.fault = (runInputs s s.pending).fault) ∧
  (∀ (s : State) (first second : List StepInput),
    runInputs s (first ++ second) = runInputs (runInputs s first) second)

/-! ### What any command may change, read and raise -/

/-- R36: a command has no effect beyond `R` and the fault mark, and the two never change together. -/
def Obligations.CommandsChangeOnlyRegisterOrFaultMark : Prop :=
  ∀ (i : Instr) (s t : State), exec i s = .next t →
    t.port = s.port ∧ t.pending = s.pending ∧ (t.fault = s.fault ∨ t.r = s.r)

/-- R115: `IllegalCommand` comes of an accepted illegal word, records the word and the bus, leaves `R`, and is raised by no
legal command. -/
def Obligations.OnlyTheDecoderRaisesIllegalCommand : Prop :=
  (∀ (s : State) (p : StepInput) (later : List StepInput),
    s.fault = none → s.pending = p :: later → p.rst = false → p.cmdValid = true → legalCmd p.cmd = false →
    step s = .next { s with
      fault := some { reason := .illegalCommand, cmd := p.cmd, opnd := p.opnd }
      port := p
      pending := later }) ∧
  (∀ (i : Instr) (s t : State) (f : FaultRecord), s.fault = none → exec i s = .next t → t.fault = some f →
    f.reason ≠ .illegalCommand)

/-- R116: LD, ADD and MUL with `opnd[127] = 1` raise `NonCanonicalOperand`, with the command and the bus recorded and all
else unchanged; no other command and no other operand does. -/
def Obligations.NonCanonicalOperandIsRaisedByLdAddMulOnly : Prop :=
  ∀ (i : Instr) (s : State), s.fault = none →
    ((i = .ld ∨ i = .add ∨ i = .mul) → s.port.opnd.getLsbD 127 = true →
      exec i s = .next { s with
        fault := some { reason := .nonCanonicalOperand, cmd := s.port.cmd, opnd := s.port.opnd } }) ∧
    (∀ t f, exec i s = .next t → t.fault = some f → f.reason = .nonCanonicalOperand →
      (i = .ld ∨ i = .add ∨ i = .mul) ∧ s.port.opnd.getLsbD 127 = true)

/-- R117: ADD, MUL01, MUL10, MUL11, MULBIT 1 and MUL raise `UndefinedRead` while `R` has no value (ADD and MUL with a canonical
operand, by the order of R118), with the command and the bus recorded and all else unchanged; no other command does. -/
def Obligations.UndefinedReadIsRaisedByReadersOnly : Prop :=
  ∀ (i : Instr) (s : State), s.fault = none →
    ((i = .mul01 ∨ i = .mul10 ∨ i = .mul11 ∨ i = .mulbit true ∨
        (i = .add ∨ i = .mul) ∧ s.port.opnd.getLsbD 127 = false) → s.r = none →
      exec i s = .next { s with
        fault := some { reason := .undefinedRead, cmd := s.port.cmd, opnd := s.port.opnd } }) ∧
    (∀ t f, exec i s = .next t → t.fault = some f → f.reason = .undefinedRead →
      (i = .add ∨ i = .mul01 ∨ i = .mul10 ∨ i = .mul11 ∨ i = .mulbit true ∨ i = .mul) ∧ s.r = none)

/-- CLR, LDS, LD, MUL00 and MULBIT 0 do not read `R`: from two states that differ in `R` alone they answer the same state,
unless they fault (R15, R117). -/
def Obligations.WritersThatDoNotReadForgetTheOldRegister : Prop :=
  ∀ (i : Instr) (s t : State) (r' : Option Element),
    (i = .clr ∨ i = .lds ∨ i = .ld ∨ i = .mul00 ∨ i = .mulbit false) →
    s.fault = none → exec i s = .next t → t.fault = none → exec i { s with r := r' } = .next t

/-- NOP, CLR, MUL00..MUL11 and MULBIT do not read `opnd`, and LDS reads `opnd[63:0]` only: with any other operand (of the same
low half, for LDS) the register after the command is the same and the command faults no more than before
(R35, R49, R50). -/
def Obligations.UnreadOperandBitsChangeNothing : Prop :=
  ∀ (i : Instr) (s t : State) (opnd' : Element),
    (i ∈ [Instr.nop, .clr, .mul00, .mul01, .mul10, .mul11, .mulbit false, .mulbit true] ∨
      i = .lds ∧ opnd'.extractLsb' 0 64 = s.port.opnd.extractLsb' 0 64) →
    s.fault = none → exec i s = .next t → t.fault = none →
    exec i { s with port := { s.port with opnd := opnd' } } =
      .next { t with port := { s.port with opnd := opnd' } }

/-! ### The commands (40_element_reg.md to 44_reduce_mul.md)

The guard for an accepted step (`rst = 0`, `cmd_valid = 1`, no earlier fault) is R22's; `exec` is the arm behind it. -/

/-- R61: NOP, cmd 0x00, holds the whole state, `R` without a value included; as a step it does what an idle edge does. -/
def Obligations.NopHoldsTheState : Prop :=
  encode .nop = 0x00#8 ∧
  (∀ s, exec .nop s = .next s) ∧
  (∀ (s : State) (p idle : StepInput) (later : List StepInput),
    p.rst = false → p.cmdValid = true → p.cmd = 0x00#8 → idle.rst = false → idle.cmdValid = false →
    step { s with pending := p :: later } = .next { s with port := p, pending := later } ∧
    step { s with pending := idle :: later } = .next { s with port := idle, pending := later })

/-- R62: CLR, cmd 0x01, writes 0 whether or not `R` has a value and changes nothing else; on a faulted state a CLR step
changes neither `R` nor the fault. -/
def Obligations.ClrWritesZero : Prop :=
  encode .clr = 0x01#8 ∧
  (∀ s : State, s.fault = none → exec .clr s = .next { s with r := some 0 }) ∧
  (∀ (s : State) (p : StepInput) (later : List StepInput),
    s.pending = p :: later → p.rst = false → p.cmdValid = true → p.cmd = 0x01#8 → s.fault ≠ none →
    step s = .next { s with port := p, pending := later })

/-- R63: LDS, cmd 0x02, always writes `opnd[63:0]` to `R[63:0]` and 0 to `R[127:64]`, for every operand and every `R`, and
changes nothing else. -/
def Obligations.LdsWritesTheZeroExtendedLowHalf : Prop :=
  encode .lds = 0x02#8 ∧
  ∀ s : State, s.fault = none → ∃ e : Element,
    exec .lds s = .next { s with r := some e } ∧
    e.extractLsb' 0 64 = s.port.opnd.extractLsb' 0 64 ∧ e.extractLsb' 64 64 = 0 ∧
    (s.port.opnd.extractLsb' 0 64 = 0xffffffffffffffff#64 → e = 0x0000000000000000ffffffffffffffff#128) ∧
    (s.port.opnd.extractLsb' 0 64 = 0 → e = 0) ∧
    (s.port.opnd = 1 → e = 0x00000000000000000000000000000001#128)

/-- R64: LD, cmd 0x03, loads a canonical operand unchanged, whether or not `R` has a value; with bit 127 set it raises
`NonCanonicalOperand` and leaves `R`. -/
def Obligations.LdLoadsACanonicalElement : Prop :=
  encode .ld = 0x03#8 ∧
  ∀ s : State, s.fault = none →
    (s.port.opnd.getLsbD 127 = false → exec .ld s = .next { s with r := some s.port.opnd }) ∧
    (s.port.opnd.getLsbD 127 = true →
      exec .ld s = .next { s with
        fault := some { reason := .nonCanonicalOperand, cmd := s.port.cmd, opnd := s.port.opnd } })

/-- R72: ADD, cmd 0x04, writes the XOR of `R` and a canonical operand; a non-canonical operand faults first, then a
register without a value; the corner values and the example are the rule's. -/
def Obligations.AddWritesTheXor : Prop :=
  encode .add = 0x04#8 ∧
  (∀ (s : State) (a : Element), s.fault = none → s.port.opnd.getLsbD 127 = false → s.r = some a →
    exec .add s = .next { s with r := some (a ^^^ s.port.opnd) } ∧
    (a.getLsbD 127 = false → (a ^^^ s.port.opnd).getLsbD 127 = false) ∧
    (s.port.opnd = a → exec .add s = .next { s with r := some 0 }) ∧
    (s.port.opnd = 0 → exec .add s = .next { s with r := some a }) ∧
    (a = 0x0123456789abcdeffedcba9876543210#128 → s.port.opnd = 0x7fffffffffffffffffffffffffffffff#128 →
      exec .add s = .next { s with r := some 0x7edcba98765432100123456789abcdef#128 })) ∧
  (∀ s : State, s.fault = none → s.port.opnd.getLsbD 127 = true →
    exec .add s = .next { s with
      fault := some { reason := .nonCanonicalOperand, cmd := s.port.cmd, opnd := s.port.opnd } }) ∧
  (∀ s : State, s.fault = none → s.port.opnd.getLsbD 127 = false → s.r = none →
    exec .add s = .next { s with
      fault := some { reason := .undefinedRead, cmd := s.port.cmd, opnd := s.port.opnd } })

/-- R83: MUL00, cmd 0x05, writes 0 whether or not `R` has a value, as CLR does, and changes nothing else. -/
def Obligations.MulByZeroConstantWritesZero : Prop :=
  encode .mul00 = 0x05#8 ∧
  ∀ s : State, s.fault = none → exec .mul00 s = .next { s with r := some 0 } ∧ exec .mul00 s = exec .clr s

/-- R84: MUL01, cmd 0x15, keeps a register that has a value and faults on one that has none, where NOP does not. -/
def Obligations.MulByOneConstantKeepsADefinedRegister : Prop :=
  encode .mul01 = 0x15#8 ∧
  (∀ (s : State) (a : Element), s.fault = none → s.r = some a →
    exec .mul01 s = .next s ∧ exec .mul01 s = exec .nop s) ∧
  (∀ s : State, s.fault = none → s.r = none →
    exec .mul01 s = .next { s with
      fault := some { reason := .undefinedRead, cmd := s.port.cmd, opnd := s.port.opnd } })

/-- R85: MUL10, cmd 0x25, writes `mul_10(R)`, faults on a register without a value, and has the rule's corner values. -/
def Obligations.MulByXConstantDoublesTheRegister : Prop :=
  encode .mul10 = 0x25#8 ∧
  (∀ (s : State) (a : Element), s.fault = none → s.r = some a → exec .mul10 s = .next { s with r := some (mul10 a) }) ∧
  (∀ s : State, s.fault = none → s.r = none →
    exec .mul10 s = .next { s with
      fault := some { reason := .undefinedRead, cmd := s.port.cmd, opnd := s.port.opnd } }) ∧
  mul10 0x40000000000000000000000000000000#128 = 0x00000000000000008000000000000001#128 ∧
  mul10 0x00000000000000008000000000000000#128 = 0x00000000000000010000000000000000#128 ∧
  mul10 0x7fffffffffffffffffffffffffffffff#128 = 0x7fffffffffffffff7fffffffffffffff#128 ∧
  mul10 0 = 0 ∧
  mul10 0x20000000000000000000000000000000#128 = 0x40000000000000000000000000000000#128 ∧
  mul10 1 = 2

/-- R86: MUL11, cmd 0x35, writes `R ^ mul_10(R)`, faults on a register without a value, and has the rule's corner
values and example. -/
def Obligations.MulByXPlusOneConstantAddsTheDouble : Prop :=
  encode .mul11 = 0x35#8 ∧
  (∀ (s : State) (a : Element), s.fault = none → s.r = some a →
    exec .mul11 s = .next { s with r := some (a ^^^ mul10 a) }) ∧
  (∀ s : State, s.fault = none → s.r = none →
    exec .mul11 s = .next { s with
      fault := some { reason := .undefinedRead, cmd := s.port.cmd, opnd := s.port.opnd } }) ∧
  mul11 0x40000000000000000000000000000000#128 = 0x40000000000000008000000000000001#128 ∧
  mul11 0x7fffffffffffffffffffffffffffffff#128 = 0x00000000000000008000000000000000#128 ∧
  mul11 1 = 3 ∧ mul11 0 = 0 ∧
  mul11 0x0123456789abcdeffedcba9876543210#128 = 0x0365cfa89afc56300365cfa89afc5630#128

/-- R88: MULBIT, cmd 0x06 or 0x16, with b = 0 writes 0 whether or not `R` has a value, as MUL00, and with b = 1 acts as MUL01:
it keeps a register that has a value and faults on one that has none; cmd 0x26 and 0x36 are illegal. -/
def Obligations.MulbitGatesTheRegister : Prop :=
  encode (.mulbit false) = 0x06#8 ∧ encode (.mulbit true) = 0x16#8 ∧
  (∀ s : State, s.fault = none → exec (.mulbit false) s = .next { s with r := some 0 } ∧
    exec (.mulbit false) s = exec .mul00 s ∧ exec (.mulbit true) s = exec .mul01 s) ∧
  (∀ (s : State) (a : Element), s.fault = none → s.r = some a → exec (.mulbit true) s = .next s) ∧
  (∀ s : State, s.fault = none → s.r = none →
    exec (.mulbit true) s = .next { s with
      fault := some { reason := .undefinedRead, cmd := s.port.cmd, opnd := s.port.opnd } }) ∧
  (∀ (s : State) (p : StepInput) (later : List StepInput),
    s.fault = none → s.pending = p :: later → p.rst = false → p.cmdValid = true →
    (p.cmd = 0x26#8 ∨ p.cmd = 0x36#8) →
    step s = .next { s with
      fault := some { reason := .illegalCommand, cmd := p.cmd, opnd := p.opnd }
      port := p
      pending := later })

/-- R105: MUL, cmd 0x07, writes `reduce(karatsuba(R, opnd))` for a canonical operand, a canonical element; a non-canonical
operand faults first, then a register without a value; the corner values and the example are the rule's. -/
def Obligations.MulWritesTheReducedProduct : Prop :=
  encode .mul = 0x07#8 ∧
  (∀ (s : State) (a : Element), s.fault = none → s.port.opnd.getLsbD 127 = false → s.r = some a →
    ∃ e : Element, exec .mul s = .next { s with r := some e } ∧
      e = reduce (karatsuba a s.port.opnd).1 (karatsuba a s.port.opnd).2 ∧
      e.getLsbD 127 = false ∧
      (s.port.opnd = 0 ∨ a = 0 → e = 0) ∧
      (a.getLsbD 127 = false →
        (s.port.opnd = 1 → e = a) ∧ (s.port.opnd = 2 → e = mul10 a) ∧ (s.port.opnd = 3 → e = mul11 a)) ∧
      (a = 0x40000000000000000000000000000000#128 → s.port.opnd = 2 →
        e = 0x00000000000000008000000000000001#128) ∧
      (a = 0x00000000000000010000000000000000#128 → s.port.opnd = a →
        e = 0x00000000000000010000000000000002#128) ∧
      (a = 0x7fffffffffffffffffffffffffffffff#128 → s.port.opnd = a →
        e = 0x3fffffffffffffffd555555555555555#128) ∧
      (a = 0x0123456789abcdeffedcba9876543210#128 → s.port.opnd = 0x40000000000000000000000000000001#128 →
        e = 0x7e4d182bb281d4e78123456789abcdef#128)) ∧
  (∀ s : State, s.fault = none → s.port.opnd.getLsbD 127 = true →
    exec .mul s = .next { s with
      fault := some { reason := .nonCanonicalOperand, cmd := s.port.cmd, opnd := s.port.opnd } }) ∧
  (∀ s : State, s.fault = none → s.port.opnd.getLsbD 127 = false → s.r = none →
    exec .mul s = .next { s with
      fault := some { reason := .undefinedRead, cmd := s.port.cmd, opnd := s.port.opnd } })

/-! ### Outputs and functions of the element register -/

/-- R67: `equals` is equality of all 128 bits, equally of both half-words, and an equivalence; on canonical values it is
equality of field elements; and it drives `eq`. -/
def Obligations.EqualsComparesAllBits : Prop :=
  (∀ a b, equals a b = true ↔ a = b) ∧
  (∀ a b, equals a b = true ↔ ∀ i < 128, a.getLsbD i = b.getLsbD i) ∧
  (∀ a b, equals a b = true ↔ lo64 a = lo64 b ∧ hi64 a = hi64 b) ∧
  (∀ a, equals a a = true) ∧ (∀ a b, equals a b = equals b a) ∧
  (∀ a b c, equals a b = true → equals b c = true → equals a c = true) ∧
  (∀ a b : Element, a.getLsbD 127 = false → b.getLsbD 127 = false →
    (equals a b = true ↔ AdjoinRoot.mk modulus (poly a) = AdjoinRoot.mk modulus (poly b))) ∧
  (∀ (s : State) (e opnd : Element), s.fault = none → s.r = some e → s.eq opnd = some (equals e opnd))

/-- The outputs in a state without a fault are R23's and R24's, on every operand, canonical or not; in a faulted state
neither shows a value, which for `eq` is the MODEL's reading (assumption 6). -/
def Obligations.OutputsShowTheRegisterUntilAFault : Prop :=
  (∀ s : State, s.fault = none → s.q = s.r) ∧
  (∀ (s : State) (opnd : Element), s.fault = none → s.r = none → s.eq opnd = none) ∧
  (∀ (s : State) (e opnd : Element), s.fault = none → s.r = some e →
    (s.eq opnd = some true ↔ e = opnd) ∧ (s.eq opnd = some false ↔ e ≠ opnd)) ∧
  (∀ (s : State) (f : FaultRecord), s.fault = some f → s.q = none ∧ ∀ opnd, s.eq opnd = none)

/-- R66: `from_small_int(v)` has `v` as its low half and 0 as its high half, is canonical, and denotes the polynomial
`v` denotes. -/
def Obligations.SmallIntegersLiftWithoutReduction : Prop :=
  ∀ v : Half, fromSmallInt v = 0#64 ++ v ∧ (fromSmallInt v).getLsbD 127 = false ∧
    IsBits (fromSmallInt v) (∑ i ∈ Finset.range 64, if v.getLsbD i then X ^ i else 0)

/-! ### Arithmetic (41_add.md to 44_reduce_mul.md) -/

/-- R71: `add` is XOR on the 128 bits, addition of polynomials over GF(2), and keeps canonical values canonical. -/
def Obligations.AddIsPolynomialAddition : Prop :=
  ∀ a b : Element,
    (∀ i < 128, (Machine.add a b).getLsbD i = (a.getLsbD i ^^ b.getLsbD i)) ∧
    IsBits (Machine.add a b) (poly a + poly b) ∧
    (a.getLsbD 127 = false → b.getLsbD 127 = false → (Machine.add a b).getLsbD 127 = false)

/-- R79's three steps, bit by bit: coefficients move up by one, bit 126 folds into bits 0 and 63, and the result is
canonical for every input. -/
def Obligations.DoublingShiftsAndFoldsBit126 : Prop :=
  ∀ a : Element,
    (mul10 a).getLsbD 0 = a.getLsbD 126 ∧
    (mul10 a).getLsbD 63 = (a.getLsbD 62 ^^ a.getLsbD 126) ∧
    (∀ i, 0 < i → i ≠ 63 → i < 127 → (mul10 a).getLsbD i = a.getLsbD (i - 1)) ∧
    (mul10 a).getLsbD 127 = false

/-- R80: on canonical elements `mul_10` is multiplication by x modulo f. -/
def Obligations.DoublingMultipliesByX : Prop :=
  ∀ a : Element, a.getLsbD 127 = false → IsBits (mul10 a) (modF (X * poly a))

/-- R81: `mul_11(a)` is `a ^ mul_10(a)`, on canonical elements multiplication by x+1 modulo f, with a canonical
result. -/
def Obligations.MulElevenMultipliesByXPlusOne : Prop :=
  ∀ a : Element, mul11 a = Machine.add (mul01 a) (mul10 a) ∧ mul11 a = a ^^^ mul10 a ∧
    (a.getLsbD 127 = false →
      IsBits (mul11 a) (modF ((X + 1) * poly a)) ∧ (mul11 a).getLsbD 127 = false)

/-- The selector, read as an element, is the constant it selects: the multiplexer multiplies by it modulo f
(R44, R77). -/
def Obligations.SelectorIsTheConstantItSelects : Prop :=
  ∀ (sel : Sel) (a : Element), a.getLsbD 127 = false → IsBits (cmul sel a) (modF (poly sel * poly a))

/-- R87: on canonical elements the constant multipliers agree with the general one. -/
def Obligations.ConstantMultipliersAgreeWithMul : Prop :=
  ∀ a : Element, a.getLsbD 127 = false →
    Machine.mul a (fromSmallInt 0) = mul00 a ∧ Machine.mul a (fromSmallInt 1) = mul01 a ∧
    Machine.mul a (fromSmallInt 2) = mul10 a ∧ Machine.mul a (fromSmallInt 3) = mul11 a

/-- R91: bit k of `clmul64(a, b)` is the XOR over i + j = k of `a[i] AND b[j]` (1 exactly when an odd number of those pairs
are both 1); bit 127 is 0; as polynomials it is the product. -/
def Obligations.ClmulIsTheXorConvolution : Prop :=
  ∀ a b : Half,
    (∀ k < 128, (clmul64 a b).getLsbD k = true ↔
      Odd ((Finset.range 64 ×ˢ Finset.range 64).filter fun ij =>
        ij.1 + ij.2 = k ∧ a.getLsbD ij.1 = true ∧ b.getLsbD ij.2 = true).card) ∧
    (clmul64 a b).getLsbD 127 = false ∧
    poly (clmul64 a b) = poly a * poly b

/-- R93: the laws of `clmul64`, with the rule's examples. -/
def Obligations.ClmulLaws : Prop :=
  (∀ a b, clmul64 a b = clmul64 b a) ∧
  (∀ a b c, clmul64 a (b ^^^ c) = clmul64 a b ^^^ clmul64 a c) ∧
  (∀ a, clmul64 a 1 = a.setWidth 128) ∧
  (∀ a, clmul64 a 0 = 0) ∧
  (∀ a, ∀ k ≤ 63, clmul64 a (BitVec.ofNat 64 (2 ^ k)) = a.setWidth 128 <<< k) ∧
  clmul64 3 3 = 5 ∧
  clmul64 0xffffffffffffffff#64 0xffffffffffffffff#64 = 0x55555555555555555555555555555555#128 ∧
  clmul64 0x8000000000000000#64 0x8000000000000000#64 = 0x40000000000000000000000000000000#128

/-- R96: the two words of `karatsuba` are exactly the product of the polynomials, for all 128-bit inputs; of canonical
inputs the product has no bit above 252, and bit 252 is reached. -/
def Obligations.KaratsubaIsTheExactProduct : Prop :=
  (∀ a b : Element, IsBits ((karatsuba a b).2 ++ (karatsuba a b).1) (poly a * poly b)) ∧
  (∀ a b : Element, a.getLsbD 127 = false → b.getLsbD 127 = false →
    (karatsuba a b).2.extractLsb' 125 3 = 0) ∧
  ((karatsuba 0x7fffffffffffffffffffffffffffffff#128 0x7fffffffffffffffffffffffffffffff#128).2.getLsbD 124 = true)

/-- R97's bound: bit 127 of the cross term is 0, so folding it into `hi` changes bits 0 to 62 at most. -/
def Obligations.CrossTermFoldsIntoTheLowBitsOfHi : Prop :=
  ∀ a b : Element, (karatsubaMid a b).getLsbD 127 = false ∧
    ∀ i, 63 ≤ i → (karatsuba a b).2.getLsbD i = (karatsubaHi a b).getLsbD i

/-- R101: for every 256-bit input `reduce` gives the bits of the remainder modulo f, so bit 127 of the result is 0; the
identity the rule names holds. -/
def Obligations.ReduceIsTheRemainderModuloF : Prop :=
  (∀ lo hi : Element, IsBits (reduce lo hi) (modF (poly (hi ++ lo))) ∧ (reduce lo hi).getLsbD 127 = false) ∧
  modF (X ^ 128) = modF (X ^ 64 + X)

/-- R103: for canonical products the t term is not used and `H1 < 2^61`; and the rule's worked values of `reduce` and of
its intermediate T. -/
def Obligations.ReduceOfCanonicalProductsAndWorkedValues : Prop :=
  (∀ a b : Element, a.getLsbD 127 = false → b.getLsbD 127 = false →
    (karatsuba a b).2.getLsbD 127 = false ∧ (hi64 (karatsuba a b).2).toNat < 2 ^ 61) ∧
  reduce 0x80000000000000000000000000000000#128 0 = 0x00000000000000008000000000000001#128 ∧
  reduce 0 1 = 0x00000000000000010000000000000002#128 ∧
  reduce 0 0x00000000000000008000000000000000#128 = 0x00000000000000018000000000000001#128 ∧
  reduce 0 0x00000000000000010000000000000000#128 = 0x00000000000000030000000000000002#128 ∧
  reduce 0 0x10000000000000000000000000000000#128 = 0x30000000000000002000000000000000#128 ∧
  reduceFold 0 0x10000000000000000000000000000000#128 = 0x30000000000000002000000000000000#128 ∧
  reduce 0 0x80000000000000000000000000000000#128 = 0x00000000000000008000000000000003#128 ∧
  reduceFold 0 0x80000000000000000000000000000000#128 = 0x80000000000000000000000000000002#128 ∧
  reduce 0xffffffffffffffffffffffffffffffff#128 0xffffffffffffffffffffffffffffffff#128 =
    0x0000000000000000fffffffffffffffd#128 ∧
  reduce 0x0123456789abcdeffedcba9876543210#128 0 = 0x0123456789abcdeffedcba9876543210#128

/-- R104: `mul` is the reduction of the Karatsuba product, and on canonical elements the product modulo f. -/
def Obligations.MulIsTheFieldProduct : Prop :=
  ∀ a b : Element,
    Machine.mul a b = reduce (karatsuba a b).1 (karatsuba a b).2 ∧
    (a.getLsbD 127 = false → b.getLsbD 127 = false → IsBits (Machine.mul a b) (modF (poly a * poly b)))

/-- R106: on canonical elements `mul` is commutative and associative, distributes over `add`, has 1 as its identity, gives 0
on 0, and its result is canonical. -/
def Obligations.MulLaws : Prop :=
  ∀ a b c : Element, a.getLsbD 127 = false → b.getLsbD 127 = false → c.getLsbD 127 = false →
    Machine.mul a b = Machine.mul b a ∧
    Machine.mul (Machine.mul a b) c = Machine.mul a (Machine.mul b c) ∧
    Machine.mul a (Machine.add b c) = Machine.add (Machine.mul a b) (Machine.mul a c) ∧
    Machine.mul a (fromSmallInt 1) = a ∧ Machine.mul a Machine.zero = Machine.zero ∧
    (Machine.mul a b).getLsbD 127 = false

/-- `add` and `mul` make the canonical patterns the ring GF(2)[x]/(f): every residue class has exactly one canonical pattern,
and sums, products, 0 and 1 are carried over (R12, R108; that f is irreducible is not claimed, assumption 11). -/
def Obligations.CanonicalPatternsAreTheRingModuloF : Prop :=
  (∀ y : AdjoinRoot modulus, ∃! e : Element, e.getLsbD 127 = false ∧ AdjoinRoot.mk modulus (poly e) = y) ∧
  (∀ a b : Element, a.getLsbD 127 = false → b.getLsbD 127 = false →
    AdjoinRoot.mk modulus (poly (Machine.add a b)) =
      AdjoinRoot.mk modulus (poly a) + AdjoinRoot.mk modulus (poly b) ∧
    AdjoinRoot.mk modulus (poly (Machine.mul a b)) =
      AdjoinRoot.mk modulus (poly a) * AdjoinRoot.mk modulus (poly b)) ∧
  AdjoinRoot.mk modulus (poly Machine.zero) = 0 ∧
  AdjoinRoot.mk modulus (poly (fromSmallInt 1)) = 1
end

