-- ==== Sys2Proof/Laws/Operands.lean ====
section
/-! SUPPORT. `Canonical` in simp's normal form, and the two values of bit 127. -/

namespace Sys2Proof.Machine

theorem canonical_iff_getElem (e : Element) : Canonical e ↔ e[127] = false := by simp [Canonical]

theorem canonical_or_bit127 (e : Element) : Canonical e ∨ e.getLsbD 127 = true := by
  unfold Canonical
  cases e.getLsbD 127 <;> simp

theorem canonical_zero : Canonical 0 := by decide

end Sys2Proof.Machine
end

