-- ==== Sys2Proof/Laws/State.lean ====
section
/-! SUPPORT. One lemma per field and update of State, so that no proof unfolds a record update. -/

namespace Sys2Proof.Machine

@[simp] theorem State.setR_r (s : State) (e : Element) : (s.setR e).r = some e := rfl
@[simp] theorem State.setR_fault (s : State) (e : Element) : (s.setR e).fault = s.fault := rfl
@[simp] theorem State.setR_port (s : State) (e : Element) : (s.setR e).port = s.port := rfl
@[simp] theorem State.setR_pending (s : State) (e : Element) : (s.setR e).pending = s.pending := rfl

@[simp] theorem State.raise_r (s : State) (c : FaultReason) : (s.raise c).r = s.r := rfl
@[simp] theorem State.raise_fault (s : State) (c : FaultReason) :
    (s.raise c).fault = some { reason := c, cmd := s.port.cmd, opnd := s.port.opnd } := rfl
@[simp] theorem State.raise_port (s : State) (c : FaultReason) : (s.raise c).port = s.port := rfl
@[simp] theorem State.raise_pending (s : State) (c : FaultReason) : (s.raise c).pending = s.pending := rfl

@[simp] theorem State.drive_r (s : State) (p : StepInput) (l : List StepInput) : (s.drive p l).r = s.r := rfl
@[simp] theorem State.drive_fault (s : State) (p : StepInput) (l : List StepInput) :
    (s.drive p l).fault = s.fault := rfl
@[simp] theorem State.drive_port (s : State) (p : StepInput) (l : List StepInput) : (s.drive p l).port = p := rfl
@[simp] theorem State.drive_pending (s : State) (p : StepInput) (l : List StepInput) :
    (s.drive p l).pending = l := rfl

@[simp] theorem State.present_r (s : State) (cmd : Cmd) : (s.present cmd).r = s.r := rfl
@[simp] theorem State.present_fault (s : State) (cmd : Cmd) : (s.present cmd).fault = s.fault := rfl
@[simp] theorem State.present_port (s : State) (cmd : Cmd) : (s.present cmd).port = s.port := rfl
@[simp] theorem State.present_pending (s : State) (cmd : Cmd) :
    (s.present cmd).pending = commandInput cmd 0 :: s.pending := rfl

end Sys2Proof.Machine
end

