-- ==== Sys2Proof/Laws/Ops.lean ====
section
/-! SUPPORT. What each shared operation can answer, said once: an equation per case, and one inversion lemma ("if it
answers next t, then ..."). Proofs cite these instead of unfolding the operations. -/

namespace Sys2Proof.Machine

@[simp] theorem hold_eq_next {s t : State} : hold s = .next t ↔ s = t := by simp [hold]

@[simp] theorem writeR_eq_next {e : Element} {s t : State} : writeR e s = .next t ↔ s.setR e = t := by
  simp [writeR]

@[simp] theorem raiseFault_eq_next {c : FaultReason} {s t : State} :
    raiseFault c s = .next t ↔ s.raise c = t := by simp [raiseFault]

@[simp] theorem resetEdge_eq_next {s t : State} : resetEdge s = .next t ↔ s.setR 0 = t := by simp [resetEdge]

theorem withR_of_some {k : Element → Result} {s : State} {a : Element} (h : s.r = some a) : withR k s = k a := by
  simp [withR, h]

theorem withR_of_none {k : Element → Result} {s : State} (h : s.r = none) :
    withR k s = raiseFault .undefinedRead s := by simp [withR, h]

theorem withR_cases {k : Element → Result} {s t : State} (h : withR k s = .next t) :
    (∃ a, s.r = some a ∧ k a = .next t) ∨ (s.r = none ∧ s.raise .undefinedRead = t) := by
  cases hr : s.r with
  | some a => exact .inl ⟨a, rfl, by rwa [withR_of_some hr] at h⟩
  | none => exact .inr ⟨rfl, by simpa [withR_of_none hr] using h⟩

theorem withElement_of_canonical {k : Element → Result} {s : State} (h : Canonical s.port.opnd) :
    withElement k s = k s.port.opnd := if_pos h

theorem withElement_of_bit127 {k : Element → Result} {s : State} (h : s.port.opnd.getLsbD 127 = true) :
    withElement k s = raiseFault .nonCanonicalOperand s := if_neg (by simp [Canonical, h])

theorem withElement_cases {k : Element → Result} {s t : State} (h : withElement k s = .next t) :
    (Canonical s.port.opnd ∧ k s.port.opnd = .next t) ∨
      (s.port.opnd.getLsbD 127 = true ∧ s.raise .nonCanonicalOperand = t) := by
  cases hb : s.port.opnd.getLsbD 127 with
  | false => exact .inl ⟨hb, by rwa [withElement_of_canonical hb] at h⟩
  | true => exact .inr ⟨rfl, by simpa [withElement_of_bit127 hb] using h⟩

/-! ### The edge -/

theorem acceptCommand_of_instr {s : State} {i : Instr} (h : decode s.port.cmd = .instr i) :
    acceptCommand s = exec i s := by simp [acceptCommand, h]

theorem acceptCommand_of_illegal {s : State} {w : Illegal} (h : decode s.port.cmd = .illegal w) :
    acceptCommand s = raiseFault .illegalCommand s := by simp [acceptCommand, h]

theorem clockEdge_of_fault {s : State} {f : FaultRecord} (h : s.fault = some f) : clockEdge s = hold s := by
  simp [clockEdge, h]

theorem clockEdge_of_rst {s : State} (hf : s.fault = none) (h : s.port.rst = true) :
    clockEdge s = resetEdge s := by simp [clockEdge, hf, h]

theorem clockEdge_of_idle {s : State} (hf : s.fault = none) (hr : s.port.rst = false)
    (h : s.port.cmdValid = false) : clockEdge s = hold s := by simp [clockEdge, hf, hr, h]

theorem clockEdge_of_accept {s : State} (hf : s.fault = none) (hr : s.port.rst = false)
    (h : s.port.cmdValid = true) : clockEdge s = acceptCommand s := by simp [clockEdge, hf, hr, h]

theorem clockEdge_cases {s t : State} (h : clockEdge s = .next t) :
    s = t ∨ (s.fault = none ∧ s.port.rst = true ∧ s.setR 0 = t) ∨
      (s.fault = none ∧ s.port.rst = false ∧ s.port.cmdValid = true ∧
        ((∃ w, decode s.port.cmd = .illegal w ∧ s.raise .illegalCommand = t) ∨
          ∃ i, decode s.port.cmd = .instr i ∧ exec i s = .next t)) := by
  cases hf : s.fault with
  | some f => exact .inl (by simpa [clockEdge_of_fault hf] using h)
  | none =>
    cases hr : s.port.rst with
    | true => exact .inr (.inl ⟨rfl, rfl, by simpa [clockEdge_of_rst hf hr] using h⟩)
    | false =>
      cases hv : s.port.cmdValid with
      | false => exact .inl (by simpa [clockEdge_of_idle hf hr hv] using h)
      | true =>
        rw [clockEdge_of_accept hf hr hv] at h
        refine .inr (.inr ⟨rfl, rfl, rfl, ?_⟩)
        cases hd : decode s.port.cmd with
        | illegal w => exact .inl ⟨w, rfl, by simpa [acceptCommand_of_illegal hd] using h⟩
        | instr i => exact .inr ⟨i, rfl, by rwa [acceptCommand_of_instr hd] at h⟩

theorem step_of_cons {s : State} {p : StepInput} {later : List StepInput} (h : s.pending = p :: later) :
    step s = clockEdge (s.drive p later) := by simp [step, h]

theorem step_of_nil {s : State} (h : s.pending = []) : step s = .fault .noEdge := by simp [step, h]

theorem step_cases {s t : State} (h : step s = .next t) :
    ∃ p later, s.pending = p :: later ∧ clockEdge (s.drive p later) = .next t := by
  cases hp : s.pending with
  | nil => simp [step_of_nil hp] at h
  | cons p later => exact ⟨p, later, rfl, by rwa [step_of_cons hp] at h⟩

/-! ### Any command -/

/-- Everything a command can answer: the state as it was, the state with `R` written, or the state with a fault. -/
theorem exec_shape (i : Instr) (s : State) :
    exec i s = .next s ∨ (∃ e, exec i s = .next (s.setR e)) ∨ ∃ c, exec i s = .next (s.raise c) := by
  have hw : ∀ e, writeR e s = .next s ∨ (∃ e', writeR e s = .next (s.setR e')) ∨
      ∃ c, writeR e s = .next (s.raise c) := fun e => .inr (.inl ⟨e, rfl⟩)
  have hr : ∀ c, raiseFault c s = .next s ∨ (∃ e', raiseFault c s = .next (s.setR e')) ∨
      ∃ c', raiseFault c s = .next (s.raise c') := fun c => .inr (.inr ⟨c, rfl⟩)
  cases i <;>
    simp only [exec, execNop, execClr, execLds, execLd, execAdd, execMul00, execMul01, execMul10, execMul11,
      execMulbit, execMul, withElement, withR]
  case nop => exact .inl rfl
  all_goals (repeat' split) <;> first | exact hw _ | exact hr _

end Sys2Proof.Machine
end

