-- ==== Sys2Proof/Laws/PerInstr.lean ====
section
/-! SUPPORT. Statements made of every instruction as syntax, one lemma per constructor. `LegalWord`: the instruction's
word is legal by the list of 30_encoding.md R52, which `legalCmd` reads off the rule without the decoder. -/

namespace Sys2Proof.Laws.LegalWord

/-- The word of `i` is legal, and its reserved bits are 0 (R45). -/
def Statement (i : Instr) : Prop := legalCmd (encode i) = true ∧ (encode i).rsv = 0

theorem nop : Statement .nop := by unfold Statement; decide
theorem clr : Statement .clr := by unfold Statement; decide
theorem lds : Statement .lds := by unfold Statement; decide
theorem ld : Statement .ld := by unfold Statement; decide
theorem add : Statement .add := by unfold Statement; decide
theorem mul00 : Statement .mul00 := by unfold Statement; decide
theorem mul01 : Statement .mul01 := by unfold Statement; decide
theorem mul10 : Statement .mul10 := by unfold Statement; decide
theorem mul11 : Statement .mul11 := by unfold Statement; decide
theorem mulbit (b : Bool) : Statement (.mulbit b) := by unfold Statement; revert b; decide
theorem mul : Statement .mul := by unfold Statement; decide

end Sys2Proof.Laws.LegalWord
end

