-- ==== Sys2Proof/Laws/Poly.lean ====
section
/-! SUPPORT. Bit vectors as polynomials over GF(2): coefficients, sums, shifts, halves, and the modulus. -/

namespace Sys2Proof.Machine

open Polynomial

theorem coeff_poly {n : Nat} (v : BitVec n) (i : Nat) :
    (poly v).coeff i = if v.getLsbD i then 1 else 0 := by
  have h : ∀ j, (if v.getLsbD j then (X : (ZMod 2)[X]) ^ j else 0).coeff i
      = if i = j then (if v.getLsbD j then 1 else 0) else 0 := by
    intro j; by_cases hj : v.getLsbD j <;> simp [hj, coeff_X_pow]
  simp only [poly, finsetSum_coeff, h, Finset.sum_ite_eq, Finset.mem_range]
  by_cases hi : i < n
  · simp [hi]
  · simp [hi, BitVec.getLsbD_of_ge v i (by omega)]

theorem poly_eq_iff {m n : Nat} (v : BitVec m) (w : BitVec n) :
    poly v = poly w ↔ ∀ i, v.getLsbD i = w.getLsbD i := by
  constructor
  · intro h i
    have := congrArg (fun p => p.coeff i) h
    simp only [coeff_poly] at this
    cases hv : v.getLsbD i <;> cases hw : w.getLsbD i <;> simp_all
  · intro h; ext i; simp [coeff_poly, h]

theorem poly_injective {n : Nat} {v w : BitVec n} (h : poly v = poly w) : v = w :=
  BitVec.eq_of_getLsbD_eq fun i _ => (poly_eq_iff v w).1 h i

@[simp] theorem poly_zero (n : Nat) : poly 0#n = 0 := by
  ext i; simp [coeff_poly]

theorem poly_zero' (n : Nat) : poly (0 : BitVec n) = 0 := poly_zero n

theorem poly_xor {n : Nat} (v w : BitVec n) : poly (v ^^^ w) = poly v + poly w := by
  ext i
  simp only [coeff_poly, coeff_add, BitVec.getLsbD_xor]
  cases v.getLsbD i <;> cases w.getLsbD i <;> decide

theorem degree_poly_lt {n : Nat} (v : BitVec n) : (poly v).degree < n := by
  rw [degree_lt_iff_coeff_zero]
  intro i hi
  simp [coeff_poly, BitVec.getLsbD_of_ge v i hi]

/-- `v = bits_n(p)` says that `p` is the polynomial of `v`. -/
theorem isBits_iff {n : Nat} (v : BitVec n) (p : (ZMod 2)[X]) : IsBits v p ↔ poly v = p := by
  constructor
  · rintro ⟨hd, h⟩
    ext i
    rw [coeff_poly]
    by_cases hi : i < n
    · have := h i hi
      have two : ∀ c : ZMod 2, c = 0 ∨ c = 1 := by decide
      rcases two (p.coeff i) with hc | hc <;> simp_all
    · rw [BitVec.getLsbD_of_ge v i (by omega)]
      simpa using ((degree_lt_iff_coeff_zero p n).1 hd i (by omega)).symm
  · rintro rfl
    refine ⟨degree_poly_lt v, fun i _ => ?_⟩
    rw [coeff_poly]
    cases v.getLsbD i <;> simp

/-- Widening does not change the polynomial. -/
theorem poly_setWidth {m n : Nat} (v : BitVec m) (h : m ≤ n) : poly (v.setWidth n) = poly v := by
  rw [poly_eq_iff]
  intro i
  rw [BitVec.getLsbD_setWidth]
  by_cases hi : i < n
  · simp [hi]
  · simp [hi, BitVec.getLsbD_of_ge v i (by omega)]

/-- A left shift that loses no 1 bit multiplies by a power of x. -/
theorem poly_shiftLeft {n : Nat} (v : BitVec n) (k : Nat) (h : ∀ i, n ≤ i + k → v.getLsbD i = false) :
    poly (v <<< k) = X ^ k * poly v := by
  ext i
  rw [coeff_X_pow_mul', coeff_poly, coeff_poly, BitVec.getLsbD_shiftLeft]
  by_cases hk : k ≤ i
  · by_cases hi : i < n
    · simp [hk, hi, show ¬ i < k by omega]
    · simp [hk, hi, h (i - k) (by omega)]
  · simp [hk, show i < k by omega]

theorem poly_append {m n : Nat} (v : BitVec m) (w : BitVec n) :
    poly (v ++ w) = X ^ n * poly v + poly w := by
  ext i
  rw [coeff_add, coeff_X_pow_mul', coeff_poly, coeff_poly, coeff_poly, BitVec.getLsbD_append]
  by_cases hi : i < n
  · simp [hi, show ¬ n ≤ i by omega]
  · simp [hi, show n ≤ i by omega]

theorem poly_ofHalves (h l : Half) : poly (ofHalves h l) = X ^ 64 * poly h + poly l := poly_append h l

theorem ofHalves_hi64_lo64 (e : Element) : ofHalves (hi64 e) (lo64 e) = e := by
  apply BitVec.eq_of_getLsbD_eq
  intro i hi
  simp only [ofHalves, hi64, lo64, BitVec.getLsbD_append, BitVec.getLsbD_extractLsb', Nat.zero_add]
  by_cases h : i < 64
  · simp only [h, decide_true, Bool.true_and, ↓reduceIte]
  · have h1 : i - 64 < 64 := by omega
    have h2 : 64 + (i - 64) = i := by omega
    simp only [h, h1, h2, decide_true, Bool.true_and, ↓reduceIte]

theorem poly_halves (e : Element) : poly e = X ^ 64 * poly (hi64 e) + poly (lo64 e) :=
  (congrArg poly (ofHalves_hi64_lo64 e)).symm.trans (poly_ofHalves _ _)

theorem modulus_eq : modulus = X ^ 127 + (X ^ 63 + 1) := by
  unfold modulus
  rw [add_assoc]

theorem modulus_monic : modulus.Monic := by
  rw [modulus_eq]
  exact monic_X_pow_add (by compute_degree!)

theorem degree_modulus : modulus.degree = 127 := by
  rw [modulus_eq]
  have hlt : ((X : (ZMod 2)[X]) ^ 63 + 1).degree < (X ^ 127 : (ZMod 2)[X]).degree := by
    rw [degree_X_pow]
    have : ((X : (ZMod 2)[X]) ^ 63 + 1).degree ≤ 63 := by compute_degree
    exact lt_of_le_of_lt this (by decide)
  rw [degree_add_eq_left_of_degree_lt hlt, degree_X_pow]; rfl

/-- Two polynomials with the same remainder modulo f: their difference is a multiple of f. -/
theorem modF_eq_modF_iff (p q : (ZMod 2)[X]) : modF p = modF q ↔ modulus ∣ p - q := by
  rw [modF, modF, ← sub_eq_zero, ← sub_modByMonic, modByMonic_eq_zero_iff_dvd modulus_monic]

theorem modF_of_degree_lt {p : (ZMod 2)[X]} (h : p.degree < 127) : modF p = p :=
  (modByMonic_eq_self_iff modulus_monic).2 (by rwa [degree_modulus])

/-- A canonical element's polynomial has degree below 127. -/
theorem degree_poly_of_canonical {e : Element} (h : Canonical e) : (poly e).degree < 127 := by
  refine mod_cast (degree_lt_iff_coeff_zero (poly e) 127).2 fun i hi => ?_
  rw [coeff_poly]
  rcases Nat.lt_or_ge 127 i with h1 | h1
  · simp [BitVec.getLsbD_of_ge e i (by omega)]
  · rw [show i = 127 by omega, h]; simp

end Sys2Proof.Machine
end

