-- ==== Sys2Proof/Tests/Slice0.lean ====
section
/-! SUPPORT. The model's own tests: one step each, expected values from the spec's tables (95_test_vectors.md) and rules. The
`witness_` theorems give, for every statement of Certificates/Slice0/Obligations.lean that has hypotheses, a concrete
state and operands that meet all of them together. -/

namespace Sys2Proof.Tests

open Sys2Proof.Machine

/-! ### Names of 95_test_vectors.md and small states -/

def A : Element := 0x0123456789abcdeffedcba9876543210#128
def C : Element := 0x40000000000000000000000000000001#128
def D : Element := 0x3c3c3c3c3c3c3c3ca5a5a5a5a5a5a5a5#128
def MAX : Element := 0x7fffffffffffffffffffffffffffffff#128
def X126 : Element := 0x40000000000000000000000000000000#128
/-- The smallest non-canonical pattern: bit 127 alone. -/
def BAD : Element := 0x80000000000000000000000000000000#128

/-- A state with this register, no fault, `cmd` and `opnd` on the ports, and these inputs pending. -/
def st (r : Option Element) (cmd : Cmd) (opnd : Element) (later : List StepInput := []) : State :=
  { r := r, fault := none, port := commandInput cmd opnd, pending := later }

/-- A state with no fault in which this input is the next one. -/
def at_ (r : Option Element) (p : StepInput) : State :=
  { r := r, fault := none, port := .quiet, pending := [p] }

/-- A faulted state in which this input is the next one. -/
def faulted (p : StepInput) : State :=
  { r := some 5, fault := some ⟨.nonCanonicalOperand, 0x04, BAD⟩, port := .quiet, pending := [p] }

/-- What a next state shows: the register and the fault. -/
def shows : Result → Option (Option Element × Option FaultRecord)
  | .next t => some (t.r, t.fault)
  | .fault _ | .refused _ => none

/-- One step of a command word on a register, with a bus value. -/
def run1 (r : Option Element) (cmd : Cmd) (opnd : Element) : Option (Option Element × Option FaultRecord) :=
  shows (step (at_ r (commandInput cmd opnd)))

/-- The command leaves this register and no fault. -/
def gives (e : Element) : Option (Option Element × Option FaultRecord) := some (some e, none)

/-- The command leaves the register `r` and this fault, recorded with the word and the bus. -/
def faults (r : Option Element) (c : FaultReason) (cmd : Cmd) (opnd : Element) :
    Option (Option Element × Option FaultRecord) := some (r, some ⟨c, cmd, opnd⟩)

/-! ### Well-formedness: an ill-formed term for each check (R52, R48) -/

theorem test_legalCmd_refuses_reserved_bits : legalCmd 0b01000001#8 = false := by decide
theorem test_legalCmd_refuses_reserved_opcode : legalCmd 0b00001000#8 = false := by decide
theorem test_legalCmd_refuses_selector_on_clr : legalCmd 0b00010001#8 = false := by decide
theorem test_legalCmd_refuses_mulbit_high_selector :
    legalCmd 0b00100110#8 = false ∧ legalCmd 0b00110110#8 = false := by decide
theorem test_legalCmd_accepts_mul11_and_mulbit1 :
    legalCmd 0b00110101#8 = true ∧ legalCmd 0b00010110#8 = true := by decide
theorem test_wellFormed_refuses_bit127_where_an_element_is_read :
    Instr.wellFormed .ld BAD = false ∧ Instr.wellFormed .add BAD = false ∧
    Instr.wellFormed .mul BAD = false ∧ Instr.wellFormed .lds BAD = true := by decide
theorem test_dutiful_refuses_illegal_words_and_bit127 :
    StepInput.dutiful (commandInput 0x08 0) = false ∧ StepInput.dutiful (commandInput 0x07 BAD) = false ∧
    StepInput.dutiful { rst := true, cmdValid := true, cmd := 0xff, opnd := BAD } = true := by decide

/-! ### Decoding: every instruction's word, bit by bit from R46; the encoder; the named refusals (R52) -/

theorem test_decode_element_register :
    decode 0b00000000#8 = .instr .nop ∧ decode 0b00000001#8 = .instr .clr ∧
    decode 0b00000010#8 = .instr .lds ∧ decode 0b00000011#8 = .instr .ld := by decide
theorem test_decode_add : decode 0b00000100#8 = .instr .add := by decide
theorem test_decode_const_mult :
    decode 0b00000101#8 = .instr .mul00 ∧ decode 0b00010101#8 = .instr .mul01 ∧
    decode 0b00100101#8 = .instr .mul10 ∧ decode 0b00110101#8 = .instr .mul11 := by decide
theorem test_decode_mulbit :
    decode 0b00000110#8 = .instr (.mulbit false) ∧ decode 0b00010110#8 = .instr (.mulbit true) := by decide
theorem test_decode_mul : decode 0b00000111#8 = .instr .mul := by decide
theorem test_decode_refusals_by_name :
    decode 0x41#8 = .illegal .reservedBits ∧ decode 0x0f#8 = .illegal .reservedOpcode ∧
    decode 0x11#8 = .illegal .selectorNotZero ∧ decode 0x26#8 = .illegal .mulbitSelector := by decide
theorem test_encode_words :
    [encode .nop, encode .clr, encode .lds, encode .ld, encode .add, encode .mul00, encode .mul01, encode .mul10,
      encode .mul11, encode (.mulbit false), encode (.mulbit true), encode .mul] =
    [0x00, 0x01, 0x02, 0x03, 0x04, 0x05, 0x15, 0x25, 0x35, 0x06, 0x16, 0x07] := by decide
theorem test_table_word :
    decodeTableWord 8 0x35 = some .mul11 ∧ decodeTableWord 8 0x36 = none ∧ decodeTableWord 8 0x107 = none := by
  decide
theorem test_placed_word_is_the_next_step :
    shows (step (State.reset.withFetchWord 8 0x02)) = gives 0 := by decide

/-! ### Commands: tables 2.1 to 2.5 -/

theorem test_nop_holds : run1 (some A) 0x00 BAD = gives A := by decide
theorem test_nop_holds_undefined : run1 none 0x00 0 = some (none, none) := by decide
theorem test_clr : run1 (some MAX) 0x01 0 = gives 0 ∧ run1 none 0x01 0 = gives 0 := by decide
theorem test_lds_ignores_high_half :
    run1 none 0x02 0x0000000000000abcffffffffffffffff#128 = gives 0x0000000000000000ffffffffffffffff#128 := by
  decide
theorem test_lds_ignores_bit127 : run1 (some A) 0x02 0x80000000000000000000000000000007#128 = gives 7 := by decide
theorem test_ld_max_from_power_on : run1 none 0x03 MAX = gives MAX := by decide
theorem test_ld_noncanonical : run1 (some A) 0x03 BAD = faults (some A) .nonCanonicalOperand 0x03 BAD := by decide
theorem test_add : run1 (some A) 0x04 MAX = gives 0x7edcba98765432100123456789abcdef#128 := by decide
theorem test_add_checks_operand_before_register :
    run1 none 0x04 BAD = faults none .nonCanonicalOperand 0x04 BAD ∧
    run1 none 0x04 A = faults none .undefinedRead 0x04 A := by decide
theorem test_mul00 : run1 (some A) 0x05 0 = gives 0 ∧ run1 none 0x05 0 = gives 0 := by decide
theorem test_mul01 : run1 (some A) 0x15 0 = gives A ∧ run1 none 0x15 1 = faults none .undefinedRead 0x15 1 := by
  decide
theorem test_mul10_carry_and_overflow :
    run1 (some 0x40000000000000008000000000000000#128) 0x25 0 =
      gives 0x00000000000000018000000000000001#128 := by decide
theorem test_mul10_values :
    mul10 A = 0x02468acf13579bdffdb97530eca86420#128 ∧ mul10 D = 0x78787878787878794b4b4b4b4b4b4b4a#128 ∧
    mul10 0x00000000000000004000000000000000#128 = 0x00000000000000008000000000000000#128 ∧
    run1 none 0x25 0 = faults none .undefinedRead 0x25 0 := by decide
theorem test_mul11 : run1 (some D) 0x35 0 = gives 0x4444444444444445eeeeeeeeeeeeeeef#128 := by decide
theorem test_mul11_undefined : run1 none 0x35 BAD = faults none .undefinedRead 0x35 BAD := by decide
theorem test_mulbit0 : run1 (some A) 0x06 0 = gives 0 ∧ run1 none 0x06 0 = gives 0 := by decide
theorem test_mulbit1 : run1 (some A) 0x16 0 = gives A ∧ run1 none 0x16 0 = faults none .undefinedRead 0x16 0 := by
  decide
theorem test_mul_step : run1 (some A) 0x07 C = gives 0x7e4d182bb281d4e78123456789abcdef#128 := by decide
theorem test_mul_faults :
    run1 none 0x07 A = faults none .undefinedRead 0x07 A ∧
    run1 (some A) 0x07 BAD = faults (some A) .nonCanonicalOperand 0x07 BAD := by decide

/-! ### The units: rules R93, R98, R103 and tables 2.4, 2.5 -/

theorem test_clmul64 :
    clmul64 3 3 = 5 ∧
    clmul64 0xffffffffffffffff#64 0xffffffffffffffff#64 = 0x55555555555555555555555555555555#128 ∧
    clmul64 0x8000000000000000#64 3 = 0x00000000000000018000000000000000#128 := by decide
theorem test_clmulSel_halves :
    clmulSel 0x00000000000000030000000000000001#128 0x00000000000000050000000000000001#128 true true = 15 ∧
    clmulSel 0x00000000000000030000000000000001#128 0x00000000000000050000000000000001#128 false true = 5 := by
  decide
theorem test_karatsuba_stages :
    karatsubaLo A C = 0x0000000000000000fedcba9876543210#128 ∧
    karatsubaHi A C = 0x0048d159e26af37bc000000000000000#128 ∧
    karatsubaMid A C = 0x3fb72ea61d950c840123456789abcdef#128 := by decide
theorem test_karatsuba :
    karatsuba A C = (0x0123456789abcdeffedcba9876543210#128, 0x0048d159e26af37bffb72ea61d950c84#128) := by decide
theorem test_karatsuba_square :
    karatsuba MAX MAX =
      (0x55555555555555555555555555555555#128, 0x15555555555555555555555555555555#128) := by decide
theorem test_reduce_powers :
    reduce 0x80000000000000000000000000000000#128 0 = 0x00000000000000008000000000000001#128 ∧
    reduce 0 0x00000000000000008000000000000000#128 = 0x00000000000000018000000000000001#128 ∧
    reduce 0 0x80000000000000000000000000000000#128 = 0x00000000000000008000000000000003#128 := by decide
theorem test_reduce_all_ones :
    reduce 0xffffffffffffffffffffffffffffffff#128 0xffffffffffffffffffffffffffffffff#128 =
      0x0000000000000000fffffffffffffffd#128 := by decide
theorem test_mul_squares :
    mul A A = 0x1516191a2526292a9594919085848180#128 ∧ mul X126 X126 = 0x30000000000000002000000000000000#128 := by
  decide
theorem test_mul_max : mul MAX MAX = 0x3fffffffffffffffd555555555555555#128 := by decide
theorem test_mul_inverse_of_x : mul 2 0x40000000000000004000000000000000#128 = 1 := by decide

/-! ### The step, reset, outputs: table 2.6 and P4 to P6 -/

theorem test_reset_beats_command :
    shows (step (at_ (some A) { rst := true, cmdValid := true, cmd := 0x07, opnd := A })) = gives 0 := by decide
theorem test_reset_from_power_on :
    shows (step (at_ none { rst := true, cmdValid := false, cmd := 0, opnd := 0 })) = gives 0 := by decide
theorem test_idle_does_not_decode :
    shows (step (at_ (some A) { rst := false, cmdValid := false, cmd := 0xff, opnd := BAD })) = gives A := by decide
theorem test_illegal_word : run1 (some A) 0x08 D = faults (some A) .illegalCommand 0x08 D := by decide
theorem test_faulted_state_ignores_reset :
    shows (step (faulted { rst := true, cmdValid := false, cmd := 0, opnd := 0 })) =
      faults (some 5) .nonCanonicalOperand 0x04 BAD := by decide
theorem test_no_pending_input_ends_the_run : step State.reset = .fault .noEdge := by rfl
theorem test_eq_compares_bit127 :
    (st (some 1) 0 0).eq 1 = some true ∧ (st (some 1) 0 0).eq 0x80000000000000000000000000000001#128 = some false ∧
    (st none 0 0).eq 0 = none := by decide
theorem test_q : (st (some A) 0 0).q = some A ∧ (st none 0 0).q = none ∧ (faulted .quiet).q = none := by decide

/-! ### Assembler lines: R57, R58 -/

theorem test_parse_mul_with_comment :
    parseLine ['M', 'U', 'L', ' ', '0', 'x', 'b', ' ', ';', 'x'] = some (.line (.mul 0xb)) := by decide
theorem test_parse_lds_decimal : parseLine ['L', 'D', 'S', ' ', '1', '2'] = some (.line (.lds 12)) := by decide
theorem test_parse_lds_refuses_17_digits : parseU64 ('0' :: 'x' :: List.replicate 17 '1') = none := by decide
theorem test_parse_elem_with_halves :
    parseElem ('0' :: 'x' :: (List.replicate 16 '1' ++ '_' :: List.replicate 16 'f')) =
      some 0x1111111111111111ffffffffffffffff#128 := by decide
theorem test_parse_expect_eq :
    parseLine ['E', 'X', 'P', 'E', 'C', 'T', ' ', 'e', 'q', '(', '0', 'x', '3', ')', ' ', '=', ' ', '1'] =
      some (.check (.eq 3 true)) := by decide
theorem test_line_inputs :
    Line.one.input .quiet = commandInput 0x02 1 ∧ (Line.cmul 0b11).input .quiet = commandInput 0x35 0 ∧
    Line.rst.input .quiet = { rst := true, cmdValid := false, cmd := 0, opnd := 0 } := by decide

/-! ### Parameters: R7, R8 -/

theorem test_parameters :
    Element = BitVec Config.elemW ∧ Element = BitVec Config.opndW ∧ Half = BitVec Config.halfW ∧
    Half = BitVec Config.smallW ∧ Sel = BitVec Config.selW ∧ Cmd = BitVec Config.cmdW ∧
    Config.prodW = 2 * Config.elemW ∧ Config.deg + 1 = Config.elemW :=
  ⟨rfl, rfl, rfl, rfl, rfl, rfl, rfl, rfl⟩

/-! ### Witnesses: the hypotheses of each statement are met together -/

theorem witness_DecodedWordIsTheEncoding : decode 0x16#8 = .instr (.mulbit true) := by decide
theorem witness_IllegalWordsAreRefusedAndFault :
    (at_ (some A) (commandInput 0x36 D)).fault = none ∧
    (at_ (some A) (commandInput 0x36 D)).pending = commandInput 0x36 D :: [] ∧
    (commandInput 0x36 D).rst = false ∧ (commandInput 0x36 D).cmdValid = true ∧
    decode (commandInput 0x36 D).cmd = .illegal .mulbitSelector := by decide
/-- The four bullets of R52 at their nearest words. -/
theorem witness_IllegalWords_each_bullet :
    (0x40#8).extractLsb' 6 2 ≠ 0b00#2 ∧ ((0x08#8).extractLsb' 0 4).toNat = 8 ∧
    (0x17#8).extractLsb' 0 4 = 0b0111#4 ∧ (0x17#8).extractLsb' 4 2 ≠ 0b00#2 ∧
    (0x26#8).extractLsb' 0 4 = 0b0110#4 ∧ (0x26#8).getLsbD 5 = true := by decide
theorem witness_TwelveOfTheWordsAreLegal : decode 0x06#8 = .instr (.mulbit false) := by decide
theorem witness_PseudoInstructionsExpandAsListed : (Line.dbl : Line) ≠ .rst ∧ (Line.dbl : Line) ≠ .idle := by decide

theorem witness_FirstMatchingRow_1_faulted : (faulted (commandInput 0x01 0)).fault ≠ none := by decide
theorem witness_FirstMatchingRow_2_reset :
    (at_ (some A) { rst := true, cmdValid := true, cmd := 0x07, opnd := BAD }).fault = none := by decide
theorem witness_FirstMatchingRow_3_idle :
    (at_ none { rst := false, cmdValid := false, cmd := 0xff, opnd := 0 }).fault = none := by decide
theorem witness_FirstMatchingRow_4_illegal : decode (commandInput 0x0f 0).cmd = .illegal .reservedOpcode := by decide
theorem witness_FirstMatchingRow_5_noncanonical :
    decode (commandInput 0x04 BAD).cmd = .instr .add ∧ Instr.add ∈ [Instr.ld, .add, .mul] ∧
    (commandInput 0x04 BAD).opnd.getLsbD 127 = true := by decide
theorem witness_FirstMatchingRow_6_undefined :
    decode (commandInput 0x04 MAX).cmd = .instr .add ∧ (commandInput 0x04 MAX).opnd.getLsbD 127 = false ∧
    Instr.add ∈ [Instr.add, .mul01, .mul10, .mul11, .mulbit true, .mul] ∧
    (at_ none (commandInput 0x04 MAX)).r = none := by decide
theorem witness_FirstMatchingRow_7_command :
    decode (commandInput 0x04 MAX).cmd = .instr .add ∧ (commandInput 0x04 MAX).opnd.getLsbD 127 = false ∧
    (at_ (some A) (commandInput 0x04 MAX)).r ≠ none := by decide
theorem witness_StepRunsTheDecodedInstruction :
    (at_ (some A) (commandInput 0x25 0)).fault = none ∧
    (at_ (some A) (commandInput 0x25 0)).pending = commandInput 0x25 0 :: [] ∧
    (commandInput 0x25 0).rst = false ∧ (commandInput 0x25 0).cmdValid = true ∧
    decode (commandInput 0x25 0).cmd = .instr .mul10 := by decide
theorem witness_EverySuppliedStepIsEnabled : (faulted .quiet).pending = .quiet :: [] := by decide
theorem witness_FaultIsStickyAndQuiescent :
    (faulted (commandInput 0x01 0)).fault = some ⟨.nonCanonicalOperand, 0x04, BAD⟩ ∧
    (faulted (commandInput 0x01 0)).pending = commandInput 0x01 0 :: [] := by decide
theorem witness_ResetEdgeLoadsZero :
    (at_ (some A) { StepInput.quiet with rst := true }).fault = none ∧
    [{ StepInput.quiet with rst := true }] ≠ [] ∧ ({ StepInput.quiet with rst := true }).rst = true := by decide
theorem witness_IdleEdgesKeepTheRegister :
    ∀ p ∈ [StepInput.quiet, { StepInput.quiet with cmd := 0xff }], p.rst = false ∧ p.cmdValid = false := by decide
theorem witness_EveryStepKeepsTheRegisterCanonical :
    (at_ (some MAX) (commandInput 0x25 0)).Inv ∧
    shows (step (at_ (some MAX) (commandInput 0x25 0))) = gives 0x7fffffffffffffff7fffffffffffffff#128 :=
  ⟨fun e he => by cases he; decide, by decide⟩
theorem witness_EveryReachedRegisterIsCanonical :
    (runInputs State.powerOn [commandInput 0x03 MAX, commandInput 0x25 0]).fault = none ∧
    (runInputs State.reset [commandInput 0x03 MAX]).fault = none ∧ MAX.getLsbD 127 = false := by decide
theorem witness_DutifulHostNeverMeetsAFault :
    (at_ (some MAX) (commandInput 0x07 MAX)).Ready ∧
    (∀ p ∈ (at_ (some MAX) (commandInput 0x07 MAX)).pending, p.dutiful = true) ∧
    (at_ (some MAX) (commandInput 0x07 MAX)).pending ≠ [] :=
  ⟨⟨rfl, MAX, rfl, by decide⟩, by decide, by decide⟩
/-- Every edge R134 lists boots, the LD of the largest element included. -/
theorem witness_BootMakesTheRegisterDefinedForGood :
    (∀ p ∈ [{ StepInput.quiet with rst := true }, commandInput 0x01 0, commandInput 0x02 BAD, commandInput 0x03 MAX,
      commandInput 0x05 0, commandInput 0x06 0], p.boots = true ∧ p.dutiful = true) ∧
    (at_ none (commandInput 0x03 MAX)).fault = none := by decide
theorem witness_BootMakesTheRegisterDefined_then_runs :
    State.reset.Ready ∧ (runInputs State.reset [commandInput 0x04 MAX]).fault = none :=
  ⟨⟨rfl, 0, rfl, by decide⟩, by decide⟩
theorem witness_CommandsChangeOnlyRegisterOrFaultMark : shows (exec .mul11 (st (some 1) 0x35 0)) = gives 3 := by decide
theorem witness_OnlyTheDecoderRaisesIllegalCommand :
    legalCmd (commandInput 0x80 0).cmd = false ∧ (at_ none (commandInput 0x80 0)).fault = none ∧
    shows (exec .ld (st none 0x03 BAD)) = faults none .nonCanonicalOperand 0x03 BAD := by decide
theorem witness_NonCanonicalOperandIsRaisedByLdAddMulOnly :
    (st none 0x03 BAD).fault = none ∧ (st none 0x03 BAD).port.opnd.getLsbD 127 = true ∧
    shows (exec .mul (st none 0x07 BAD)) = faults none .nonCanonicalOperand 0x07 BAD := by decide
theorem witness_UndefinedReadIsRaisedByReadersOnly :
    (st none 0x07 MAX).fault = none ∧ (st none 0x07 MAX).r = none ∧ (st none 0x07 MAX).port.opnd.getLsbD 127 = false ∧
    shows (exec .mul (st none 0x07 MAX)) = faults none .undefinedRead 0x07 MAX := by decide
theorem witness_WritersThatDoNotReadForgetTheOldRegister :
    (st none 0x03 MAX).fault = none ∧ shows (exec .ld (st none 0x03 MAX)) = gives MAX := by decide
theorem witness_UnreadOperandBitsChangeNothing :
    (0x80000000000000000000000000000007#128).extractLsb' 0 64 = (st none 0x02 7).port.opnd.extractLsb' 0 64 ∧
    shows (exec .lds (st none 0x02 7)) = gives 7 ∧
    Instr.mulbit true ∈ [Instr.nop, .clr, .mul00, .mul01, .mul10, .mul11, .mulbit false, .mulbit true] ∧
    shows (exec (.mulbit true) (st (some A) 0x16 0)) = gives A := by decide
theorem witness_NopHoldsTheState :
    (commandInput 0x00 BAD).rst = false ∧ (commandInput 0x00 BAD).cmdValid = true ∧
    (commandInput 0x00 BAD).cmd = 0x00#8 ∧ StepInput.quiet.rst = false ∧ StepInput.quiet.cmdValid = false := by decide
theorem witness_ClrWritesZero :
    (faulted (commandInput 0x01 0)).pending = commandInput 0x01 0 :: [] ∧
    (commandInput 0x01 0).rst = false ∧ (commandInput 0x01 0).cmdValid = true ∧ (st none 0x01 0).fault = none ∧
    (faulted (commandInput 0x01 0)).fault ≠ none := by decide
theorem witness_LdsWritesTheZeroExtendedLowHalf :
    (st none 0x02 1).fault = none ∧
    (st none 0x02 0x0000000000000abcffffffffffffffff#128).port.opnd.extractLsb' 0 64 = 0xffffffffffffffff#64 ∧
    (st none 0x02 BAD).port.opnd.extractLsb' 0 64 = 0 ∧ (st none 0x02 1).port.opnd = 1 := by decide
theorem witness_LdLoadsACanonicalElement :
    (st none 0x03 MAX).fault = none ∧ (st (some A) 0x03 MAX).fault = none ∧
    (st none 0x03 MAX).port.opnd.getLsbD 127 = false ∧ (st none 0x03 BAD).port.opnd.getLsbD 127 = true := by decide
theorem witness_AddWritesTheXor :
    (st none 0x04 MAX).fault = none ∧ (st (some A) 0x04 MAX).fault = none ∧
    (st (some A) 0x04 MAX).port.opnd.getLsbD 127 = false ∧ (st (some A) 0x04 MAX).r = some A ∧
    A.getLsbD 127 = false ∧ (st (some A) 0x04 A).port.opnd = A ∧ (st (some A) 0x04 0).port.opnd = 0 ∧
    (st none 0x04 BAD).port.opnd.getLsbD 127 = true ∧ (st none 0x04 MAX).r = none := by decide
theorem witness_MulByZeroConstantWritesZero : (st none 0x05 BAD).fault = none := by decide
theorem witness_MulByOneConstantKeepsADefinedRegister :
    (st (some A) 0x15 0).fault = none ∧ (st none 0x25 0).fault = none ∧
    (st (some A) 0x15 0).r = some A ∧ (st none 0x15 0).r = none := by decide
theorem witness_MulByXConstantDoublesTheRegister :
    (st (some X126) 0x25 0).fault = none ∧ (st none 0x25 0).fault = none ∧
    (st (some X126) 0x25 0).r = some X126 ∧ (st none 0x25 0).r = none := by decide
theorem witness_MulByXPlusOneConstantAddsTheDouble :
    (st (some MAX) 0x35 0).fault = none ∧ (st none 0x25 0).fault = none ∧
    (st (some MAX) 0x35 0).r = some MAX ∧ (st none 0x35 0).r = none := by decide
theorem witness_MulbitGatesTheRegister :
    (st (some A) 0x16 0).fault = none ∧ (st none 0x25 0).fault = none ∧
    (st (some A) 0x16 0).r = some A ∧ (st none 0x16 0).r = none ∧
    (at_ none (commandInput 0x26 0)).fault = none ∧ (commandInput 0x26 0).rst = false ∧
    (at_ none (commandInput 0x26 0)).pending = commandInput 0x26 0 :: [] ∧
    (commandInput 0x26 0).cmdValid = true ∧ (commandInput 0x26 0).cmd = 0x26#8 ∧
    (commandInput 0x36 0).cmd = 0x36#8 := by decide
theorem witness_MulWritesTheReducedProduct :
    (st none 0x07 MAX).fault = none ∧ (st (some A) 0x07 MAX).fault = none ∧
    (st (some A) 0x07 C).port.opnd.getLsbD 127 = false ∧ (st (some A) 0x07 C).r = some A ∧
    A.getLsbD 127 = false ∧ (st (some A) 0x07 0).port.opnd = 0 ∧ (st (some A) 0x07 1).port.opnd = 1 ∧
    (st (some A) 0x07 2).port.opnd = 2 ∧ (st (some A) 0x07 3).port.opnd = 3 ∧
    (st (some X126) 0x07 2).r = some X126 ∧ (st (some MAX) 0x07 MAX).port.opnd = MAX ∧
    (st none 0x07 BAD).port.opnd.getLsbD 127 = true ∧ (st none 0x07 MAX).r = none := by decide
theorem witness_EqualsComparesAllBits :
    equals MAX MAX = true ∧ MAX.getLsbD 127 = false ∧ (st (some MAX) 0 0).fault = none ∧
    (st (some MAX) 0 0).r = some MAX := by decide
theorem witness_OutputsShowTheRegisterUntilAFault :
    (st (some 1) 0 0).fault = none ∧ (st (some 1) 0 0).r = some 1 ∧ (st none 0 0).r = none ∧
    (faulted .quiet).fault = some ⟨.nonCanonicalOperand, 0x04, BAD⟩ := by decide
theorem witness_AddIsPolynomialAddition : MAX.getLsbD 127 = false ∧ A.getLsbD 127 = false := by decide
theorem witness_DoublingShiftsAndFoldsBit126 :
    (0 < 1 ∧ 1 ≠ 63 ∧ 1 < 127) ∧ (0 < 126 ∧ 126 ≠ 63 ∧ 126 < 127) := by decide
theorem witness_DoublingMultipliesByX : MAX.getLsbD 127 = false ∧ X126.getLsbD 127 = false := by decide
theorem witness_MulElevenMultipliesByXPlusOne : X126.getLsbD 127 = false := by decide
theorem witness_SelectorIsTheConstantItSelects : MAX.getLsbD 127 = false := by decide
theorem witness_ConstantMultipliersAgreeWithMul : A.getLsbD 127 = false := by decide
/-- At k = 126, the highest bit a product can have, one pair is 1; at k = 127 there is none. -/
theorem witness_ClmulIsTheXorConvolution :
    126 < 128 ∧ 63 + 63 = 126 ∧ (0x8000000000000000#64).getLsbD 63 = true ∧
    (clmul64 0x8000000000000000#64 0x8000000000000000#64).getLsbD 126 = true := by decide
theorem witness_ClmulLaws : 63 ≤ 63 ∧ BitVec.ofNat 64 (2 ^ 63) = 0x8000000000000000#64 := by decide
theorem witness_KaratsubaIsTheExactProduct : MAX.getLsbD 127 = false ∧ C.getLsbD 127 = false := by decide
/-- Bit 62 is the last that the fold changes, bit 63 the first of the statement's clause. -/
theorem witness_CrossTermFoldsIntoTheLowBitsOfHi :
    63 ≤ 63 ∧ (karatsuba 0x8000000000000000#128 BAD).2.getLsbD 62 ≠
      (karatsubaHi 0x8000000000000000#128 BAD).getLsbD 62 := by decide
theorem witness_ReduceOfCanonicalProductsAndWorkedValues :
    MAX.getLsbD 127 = false ∧ (hi64 (karatsuba MAX MAX).2).toNat = 0x1555555555555555 := by decide
theorem witness_MulIsTheFieldProduct : MAX.getLsbD 127 = false ∧ D.getLsbD 127 = false := by decide
theorem witness_MulLaws : A.getLsbD 127 = false ∧ C.getLsbD 127 = false ∧ D.getLsbD 127 = false := by decide
theorem witness_CanonicalPatternsAreTheRingModuloF : A.getLsbD 127 = false ∧ D.getLsbD 127 = false := by decide

end Sys2Proof.Tests
end

section
/-! The arithmetic units as polynomials: the carry-less multiply, Karatsuba, the reduction and `mul` (43_mult_karatsuba.md,
44_reduce_mul.md). -/

namespace Sys2Proof.Machine

open Polynomial

/-! ### Single bits -/

theorem poly_twoPow {n k : Nat} (h : k < n) : poly (BitVec.twoPow n k) = X ^ k := by
  ext i
  rw [coeff_poly, BitVec.getLsbD_twoPow, coeff_X_pow]
  simp [h, eq_comm]

theorem poly_one {n : Nat} (h : 0 < n) : poly 1#n = 1 := by
  rw [← BitVec.twoPow_zero, poly_twoPow h, pow_zero]

/-! ### The carry-less multiply (R91) -/

/-- A half-word shifted by at most 64 in an element loses no bit. -/
theorem poly_zext128_shiftLeft (v : Half) {k : Nat} (h : k ≤ 64) : poly (zext128 v <<< k) = X ^ k * poly v := by
  rw [poly_shiftLeft, zext128, poly_setWidth v (by decide)]
  intro i hi
  rw [zext128, BitVec.getLsbD_setWidth, BitVec.getLsbD_of_ge v i (by omega), Bool.and_false]

theorem poly_clmulRow (a b : Half) {j : Nat} (h : j ≤ 64) :
    poly (clmulRow a b j) = (if b.getLsbD j then X ^ j else 0) * poly a := by
  unfold clmulRow
  split
  · rw [poly_zext128_shiftLeft a h]
  · rw [poly_zero', zero_mul]

/-- A tree of height `k` from row `j` on multiplies by the bits `j` to `j + 2^k - 1` of `b`. -/
theorem poly_clmulTree (a b : Half) (k j : Nat) (h : j + 2 ^ k ≤ 64) :
    poly (clmulTree a b k j) =
      (∑ i ∈ Finset.Ico j (j + 2 ^ k), if b.getLsbD i then X ^ i else 0) * poly a := by
  induction k generalizing j with
  | zero => rw [clmulTree, poly_clmulRow a b (by omega)]; simp
  | succ k ih =>
    have halves : j + 2 ^ (k + 1) = j + 2 ^ k + 2 ^ k := by rw [pow_succ]; omega
    rw [halves] at h ⊢
    rw [clmulTree, poly_xor, ih j (le_trans (Nat.le_add_right ..) h), ih (j + 2 ^ k) h, ← add_mul,
      Finset.sum_Ico_consecutive _ (Nat.le_add_right ..) (Nat.le_add_right ..)]

theorem poly_clmul64 (a b : Half) : poly (clmul64 a b) = poly a * poly b := by
  rw [clmul64, poly_clmulTree a b 6 0 (by decide), mul_comm (poly a), poly, Finset.range_eq_Ico]
  rfl

/-! ### Karatsuba (R95, R96) -/

theorem poly_karatsubaLo (a b : Element) : poly (karatsubaLo a b) = poly (lo64 a) * poly (lo64 b) :=
  poly_clmul64 _ _

theorem poly_karatsubaHi (a b : Element) : poly (karatsubaHi a b) = poly (hi64 a) * poly (hi64 b) :=
  poly_clmul64 _ _

/-- The one multiply of the sums gives the two cross products: what is taken away twice is 0 over GF(2). -/
theorem poly_karatsubaMid (a b : Element) :
    poly (karatsubaMid a b) = poly (lo64 a) * poly (hi64 b) + poly (hi64 a) * poly (lo64 b) := by
  simp only [karatsubaMid, poly_xor, poly_clmul64, poly_karatsubaLo, poly_karatsubaHi]
  linear_combination (poly (lo64 a) * poly (lo64 b) + poly (hi64 a) * poly (hi64 b)) *
    (CharTwo.two_eq_zero (R := (ZMod 2)[X]))

theorem poly_karatsuba (a b : Element) :
    poly ((karatsuba a b).2 ++ (karatsuba a b).1) = poly a * poly b := by
  simp only [karatsuba, poly_append, poly_xor, poly_ofHalves, zext128, poly_setWidth, poly_zero',
    poly_karatsubaLo, poly_karatsubaHi, show 64 ≤ 128 by decide]
  have mid := poly_halves (karatsubaMid a b)
  rw [poly_karatsubaMid] at mid
  rw [poly_halves a, poly_halves b]
  linear_combination (-X ^ 64) * mid

/-! ### The reduction (R101, R102) -/

/-- R101's identity with its quotient: x^128 = x^64 + x modulo f. -/
theorem X_pow_128_eq : (X : (ZMod 2)[X]) ^ 128 = X * modulus + (X ^ 64 + X) := by
  unfold modulus
  linear_combination (-(X ^ 64 + X)) * (CharTwo.two_eq_zero (R := (ZMod 2)[X]))

/-- A left shift by one multiplies by x, but for the bit that it loses. -/
theorem X_mul_poly_eq_shiftLeft (e : Element) :
    X * poly e = poly (e <<< 1) + X ^ 128 * if e.getLsbD 127 then 1 else 0 := by
  ext i
  rw [mul_ite, mul_one, mul_zero, coeff_add, coeff_poly, BitVec.getLsbD_shiftLeft, apply_ite (fun p => coeff p i),
    coeff_X_pow, coeff_zero]
  cases i with
  | zero => simp
  | succ i =>
    rw [coeff_X_mul, coeff_poly]
    rcases Nat.lt_trichotomy i 127 with h | rfl | h
    · simp [show i + 1 < 128 by omega, show i ≠ 127 by omega]
    · simp
    · simp [BitVec.getLsbD_of_ge e i (by omega), show ¬ i + 1 < 128 by omega, show i ≠ 127 by omega]

/-- R102's constant for the bit lost by `hi <<< 1` is x^64 + x. -/
theorem poly_overflowConstant : poly 0x00000000000000010000000000000002#128 = X ^ 64 + X := by
  have bits : 0x00000000000000010000000000000002#128 = BitVec.twoPow 128 64 ^^^ BitVec.twoPow 128 1 := by decide
  rw [bits, poly_xor, poly_twoPow (by decide), poly_twoPow (by decide), pow_one]

/-- R102's last constant is f. -/
theorem poly_modulusConstant : poly 0x80000000000000008000000000000001#128 = modulus := by
  have bits : 0x80000000000000008000000000000001#128 =
      BitVec.twoPow 128 127 ^^^ BitVec.twoPow 128 63 ^^^ 1#128 := by decide
  unfold modulus
  rw [bits, poly_xor, poly_xor, poly_twoPow (by decide), poly_twoPow (by decide), poly_one (by decide)]

/-- Adding a multiple of f does not change the class. -/
theorem mk_add_mul_modulus (p q : (ZMod 2)[X]) :
    AdjoinRoot.mk modulus (p + q * modulus) = AdjoinRoot.mk modulus p := by
  rw [map_add, map_mul, AdjoinRoot.mk_self, mul_zero, add_zero]

/-- The fold replaces x^128 by x^64 + x in `x^128 * hi`, in the part of `x^64 * hi` above bit 127, and in the bit that
`hi <<< 1` loses. -/
theorem mk_poly_reduceFold (lo hi : Element) :
    AdjoinRoot.mk modulus (poly (reduceFold lo hi)) = AdjoinRoot.mk modulus (poly (hi ++ lo)) := by
  have quotient : poly (hi ++ lo) = poly (reduceFold lo hi) +
      X * (poly hi + poly (hi64 hi) + if hi.getLsbD 127 then 1 else 0) * modulus := by
    have lost : poly (if hi.getLsbD 127 then 0x00000000000000010000000000000002#128 else 0) =
        (X ^ 64 + X) * if hi.getLsbD 127 then 1 else 0 := by
      split <;> simp [poly_overflowConstant]
    have doubledHalf := poly_zext128_shiftLeft (hi64 hi) (k := 1) (by decide)
    simp only [reduceFold, poly_xor, poly_append, poly_ofHalves, poly_zero', lost, doubledHalf]
    linear_combination X_mul_poly_eq_shiftLeft hi + X ^ 64 * poly_halves hi +
      (poly hi + poly (hi64 hi) + if hi.getLsbD 127 then 1 else 0) * X_pow_128_eq
  rw [quotient, mk_add_mul_modulus]

theorem mk_poly_reduce (lo hi : Element) :
    AdjoinRoot.mk modulus (poly (reduce lo hi)) = AdjoinRoot.mk modulus (poly (hi ++ lo)) := by
  rw [← mk_poly_reduceFold, reduce, poly_xor]
  split
  · rw [poly_modulusConstant, map_add, AdjoinRoot.mk_self, add_zero]
  · rw [poly_zero', add_zero]

/-- The last step of R102 clears bit 127 where the fold left it set. -/
theorem canonical_reduce (lo hi : Element) : Canonical (reduce lo hi) := by
  unfold Canonical reduce
  rw [BitVec.getLsbD_xor]
  cases (reduceFold lo hi).getLsbD 127 <;> simp

theorem canonical_mul (a b : Element) : Canonical (mul a b) := canonical_reduce _ _

theorem mk_poly_mul (a b : Element) :
    AdjoinRoot.mk modulus (poly (mul a b)) = AdjoinRoot.mk modulus (poly a) * AdjoinRoot.mk modulus (poly b) := by
  rw [mul, mk_poly_reduce, poly_karatsuba, map_mul]

/-! ### The other operations of the ring -/

theorem poly_add (a b : Element) : poly (add a b) = poly a + poly b := poly_xor a b

theorem poly_fromSmallInt (v : Half) : poly (fromSmallInt v) = poly v := by
  rw [fromSmallInt, poly_ofHalves, poly_zero', mul_zero, zero_add]

theorem poly_fromSmallInt_one : poly (fromSmallInt 1) = 1 :=
  (poly_fromSmallInt 1).trans (poly_one (by decide))

end Sys2Proof.Machine
end

section
/-! Residue classes modulo f and their canonical patterns (00_scope.md R12, R108). -/

namespace Sys2Proof.Machine

open Polynomial

/-- `bits_n(p)` of R10 as a function: bit i is 1 exactly where the coefficient of x^i is. -/
noncomputable def bitsOf (n : Nat) (p : (ZMod 2)[X]) : BitVec n := BitVec.ofFnLE fun i => decide (p.coeff i = 1)

theorem isBits_bitsOf {n : Nat} {p : (ZMod 2)[X]} (h : p.degree < n) : IsBits (bitsOf n p) p :=
  ⟨h, fun i hi => by simp [bitsOf, hi]⟩

theorem poly_bitsOf {n : Nat} {p : (ZMod 2)[X]} (h : p.degree < n) : poly (bitsOf n p) = p :=
  (isBits_iff _ _).1 (isBits_bitsOf h)

theorem canonical_iff_degree_poly_lt (e : Element) : Canonical e ↔ (poly e).degree < 127 := by
  refine ⟨degree_poly_of_canonical, fun h => ?_⟩
  have h0 := coeff_eq_zero_of_degree_lt h
  rw [coeff_poly] at h0
  exact (canonical_or_bit127 e).resolve_right fun h1 => by simp [h1] at h0

theorem degree_modF_lt (p : (ZMod 2)[X]) : (modF p).degree < 127 :=
  degree_modulus ▸ degree_modByMonic_lt p modulus_monic

theorem mk_eq_mk_iff_modF_eq (p q : (ZMod 2)[X]) :
    AdjoinRoot.mk modulus p = AdjoinRoot.mk modulus q ↔ modF p = modF q := by
  rw [AdjoinRoot.mk_eq_mk, modF_eq_modF_iff]

theorem modF_poly_of_canonical {e : Element} (h : Canonical e) : modF (poly e) = poly e :=
  modF_of_degree_lt (degree_poly_of_canonical h)

theorem mk_modF (p : (ZMod 2)[X]) : AdjoinRoot.mk modulus (modF p) = AdjoinRoot.mk modulus p := by
  rw [mk_eq_mk_iff_modF_eq, modF_of_degree_lt (degree_modF_lt p)]

/-- Two canonical patterns of one class are equal. -/
theorem eq_of_mk_poly_eq {a b : Element} (ha : Canonical a) (hb : Canonical b)
    (h : AdjoinRoot.mk modulus (poly a) = AdjoinRoot.mk modulus (poly b)) : a = b := by
  rw [mk_eq_mk_iff_modF_eq, modF_poly_of_canonical ha, modF_poly_of_canonical hb] at h
  exact poly_injective h

/-- Every class has a canonical pattern: the bits of its remainder modulo f. -/
theorem exists_canonical_mk_poly_eq (y : AdjoinRoot modulus) :
    ∃ e : Element, Canonical e ∧ AdjoinRoot.mk modulus (poly e) = y := by
  obtain ⟨p, rfl⟩ := AdjoinRoot.mk_surjective y
  have bits : poly (bitsOf 128 (modF p)) = modF p := poly_bitsOf ((degree_modF_lt p).trans (by decide))
  refine ⟨bitsOf 128 (modF p), ?_, ?_⟩
  · rw [canonical_iff_degree_poly_lt, bits]
    exact degree_modF_lt p
  · rw [bits, mk_modF]

/-- Settles O54: the remainder modulo f picks the canonical pattern of a class, and each operation's polynomial is in the
class it should be. -/
theorem canonicalPatternsAreTheRingModuloF : Obligations.CanonicalPatternsAreTheRingModuloF := by
  refine ⟨fun y => ?_, fun a b _ _ => ⟨?_, mk_poly_mul a b⟩, ?_, ?_⟩
  · obtain ⟨e, he, rfl⟩ := exists_canonical_mk_poly_eq y
    exact ⟨e, ⟨he, rfl⟩, fun _ ⟨he', hmk⟩ => eq_of_mk_poly_eq he' he hmk⟩
  · rw [poly_add, map_add]
  · rw [zero, poly_zero', map_zero]
  · rw [poly_fromSmallInt_one, map_one]

end Sys2Proof.Machine
end

section
/-! The commands in terms of the shared operations, and how the outputs and `equals` read the state. -/

namespace Sys2Proof.Machine

/-! ### Each command as one shared operation (10_state.md R22) -/

@[simp] theorem exec_nop (s : State) : exec .nop s = hold s := rfl
@[simp] theorem exec_clr (s : State) : exec .clr s = writeR zero s := rfl
@[simp] theorem exec_lds (s : State) : exec .lds s = writeR (fromSmallInt (smallOperand s)) s := rfl
@[simp] theorem exec_ld (s : State) : exec .ld s = withElement (fun e => writeR e s) s := rfl
@[simp] theorem exec_add (s : State) :
    exec .add s = withElement (fun b => withR (fun a => writeR (add a b) s) s) s := rfl
@[simp] theorem exec_mul00 (s : State) : exec .mul00 s = writeR zero s := rfl
@[simp] theorem exec_mul01 (s : State) : exec .mul01 s = withR (fun a => writeR a s) s := rfl
@[simp] theorem exec_mul10 (s : State) : exec .mul10 s = withR (fun a => writeR (mul10 a) s) s := rfl
@[simp] theorem exec_mul11 (s : State) : exec .mul11 s = withR (fun a => writeR (mul11 a) s) s := rfl
@[simp] theorem exec_mulbit_false (s : State) : exec (.mulbit false) s = writeR zero s := rfl
@[simp] theorem exec_mulbit_true (s : State) : exec (.mulbit true) s = withR (fun a => writeR a s) s := rfl
@[simp] theorem exec_mul (s : State) :
    exec .mul s = withElement (fun b => withR (fun a => writeR (mul a b) s) s) s := rfl

/-- An accepted legal command is `exec` of the decoded instruction. -/
theorem step_of_instr {s : State} {p : StepInput} {later : List StepInput} {i : Instr} (hf : s.fault = none)
    (hp : s.pending = p :: later) (hr : p.rst = false) (hv : p.cmdValid = true) (hd : decode p.cmd = .instr i) :
    step s = exec i (s.drive p later) := by
  rw [step_of_cons hp, clockEdge_of_accept (s := s.drive p later) hf hr hv,
    acceptCommand_of_instr (s := s.drive p later) hd]

/-- Settles O8. -/
theorem stepRunsTheDecodedInstruction : Obligations.StepRunsTheDecodedInstruction :=
  fun _ _ _ _ => step_of_instr

/-! ### The outputs (R23, R24) and `equals` (R67) -/

theorem State.q_of_no_fault {s : State} (h : s.fault = none) : s.q = s.r := by simp [State.q, h]

theorem State.q_of_fault {s : State} {f : FaultRecord} (h : s.fault = some f) : s.q = none := by simp [State.q, h]

theorem State.eq_of_q_none {s : State} (h : s.q = none) (opnd : Element) : s.eq opnd = none := by
  simp [State.eq, h]

theorem State.eq_of_q_some {s : State} {e : Element} (h : s.q = some e) (opnd : Element) :
    s.eq opnd = some (equals e opnd) := by simp [State.eq, h]

/-- Equal half-words make equal elements. -/
theorem equals_eq_true_iff {a b : Element} : equals a b = true ↔ a = b := by
  constructor
  · intro h
    obtain ⟨hlo, hhi⟩ : lo64 a = lo64 b ∧ hi64 a = hi64 b := by simpa [equals] using h
    rw [← ofHalves_hi64_lo64 a, ← ofHalves_hi64_lo64 b, hlo, hhi]
  · rintro rfl
    simp [equals]

theorem equals_eq_false_iff {a b : Element} : equals a b = false ↔ a ≠ b := by
  rw [← Bool.not_eq_true, ne_eq, equals_eq_true_iff]

/-- Settles O38. -/
theorem outputsShowTheRegisterUntilAFault : Obligations.OutputsShowTheRegisterUntilAFault := by
  refine ⟨fun s hf => State.q_of_no_fault hf, fun s opnd hf hr => ?_, fun s e opnd hf hr => ?_, fun s f hf => ?_⟩
  · exact State.eq_of_q_none ((State.q_of_no_fault hf).trans hr) opnd
  · rw [State.eq_of_q_some ((State.q_of_no_fault hf).trans hr), Option.some_inj, Option.some_inj]
    exact ⟨equals_eq_true_iff, equals_eq_false_iff⟩
  · exact ⟨State.q_of_fault hf, State.eq_of_q_none (State.q_of_fault hf)⟩

/-! ### Commands that write `R` without reading it (R15, R117) -/

/-- What is written does not depend on what the register held before. -/
theorem writeR_update_r (e : Element) (s : State) (r' : Option Element) :
    writeR e { s with r := r' } = writeR e s := rfl

theorem exec_ld_of_canonical {s : State} (h : Canonical s.port.opnd) : exec .ld s = writeR s.port.opnd s := by
  rw [exec_ld, withElement_of_canonical h]

/-- LD faults on every operand that is not canonical. -/
theorem canonical_of_exec_ld {s t : State} (h : exec .ld s = .next t) (ht : t.fault = none) :
    Canonical s.port.opnd := by
  rw [exec_ld] at h
  rcases withElement_cases h with ⟨hc, -⟩ | ⟨-, rfl⟩
  · exact hc
  · cases ht

/-- Settles O24: each of the five is a write of a value that does not depend on `R`. -/
theorem writersThatDoNotReadForgetTheOldRegister : Obligations.WritersThatDoNotReadForgetTheOldRegister := by
  rintro i s t r' (rfl | rfl | rfl | rfl | rfl) - h ht
  case inr.inr.inl =>
    have hcanon := canonical_of_exec_ld h ht
    calc exec .ld { s with r := r' } = writeR s.port.opnd { s with r := r' } := exec_ld_of_canonical hcanon
      _ = writeR s.port.opnd s := writeR_update_r _ s r'
      _ = exec .ld s := (exec_ld_of_canonical hcanon).symm
      _ = .next t := h
  all_goals exact h

end Sys2Proof.Machine
end

section
/-! The representation invariant of 10_state.md R26: every value a command writes is canonical, so every step and every
run keeps the register canonical. -/

namespace Sys2Proof.Machine

/-! ### The values that commands write -/

theorem canonical_ofHalves_iff (h l : Half) : Canonical (ofHalves h l) ↔ h.getLsbD 63 = false := by
  rw [Canonical, ofHalves, BitVec.getLsbD_append, if_neg (by decide)]

theorem canonical_fromSmallInt (v : Half) : Canonical (fromSmallInt v) :=
  (canonical_ofHalves_iff 0 v).2 (by decide)

theorem canonical_add {a b : Element} (ha : Canonical a) (hb : Canonical b) : Canonical (add a b) := by
  rw [Canonical, add, BitVec.getLsbD_xor, ha, hb, Bool.xor_false]

/-- R79's mask clears bit 63 of the high half, whatever the input. -/
theorem canonical_mul10 (a : Element) : Canonical (mul10 a) := by
  refine (canonical_ofHalves_iff _ _).2 ?_
  rw [BitVec.getLsbD_and, show (0x7fffffffffffffff#64).getLsbD 63 = false by decide, Bool.and_false]

theorem canonical_mul11 {a : Element} (ha : Canonical a) : Canonical (mul11 a) :=
  canonical_add ha (canonical_mul10 a)

/-! ### The shared operations keep the invariant -/

theorem State.inv_iff (s : State) : s.Inv ↔ s.r = none ∨ ∃ e, s.r = some e ∧ Canonical e := by
  unfold State.Inv
  cases s.r <;> simp

theorem State.inv_of_r_none {s : State} (h : s.r = none) : s.Inv := s.inv_iff.2 (.inl h)

theorem State.inv_of_r_some {s : State} {e : Element} (h : s.r = some e) (he : Canonical e) : s.Inv :=
  s.inv_iff.2 (.inr ⟨e, h, he⟩)

/-- The invariant speaks of `R` alone. -/
theorem State.inv_of_r_eq {s t : State} (hr : t.r = s.r) (hs : s.Inv) : t.Inv := fun e he => hs e (hr ▸ he)

theorem writeR_inv {e : Element} {s t : State} (he : Canonical e) (h : writeR e s = .next t) : t.Inv := by
  obtain rfl := writeR_eq_next.1 h
  exact State.inv_of_r_some (State.setR_r s e) he

/-- Reading `R` hands the command a canonical element, or faults and keeps `R`. -/
theorem withR_inv {k : Element → Result} {s t : State} (hs : s.Inv)
    (hk : ∀ a, Canonical a → k a = .next t → t.Inv) (h : withR k s = .next t) : t.Inv := by
  rcases withR_cases h with ⟨a, hr, ha⟩ | ⟨-, rfl⟩
  · exact hk a (hs a hr) ha
  · exact State.inv_of_r_eq (State.raise_r ..) hs

/-- Reading the operand hands the command a canonical element, or faults and keeps `R`. -/
theorem withElement_inv {k : Element → Result} {s t : State} (hs : s.Inv)
    (hk : ∀ b, Canonical b → k b = .next t → t.Inv) (h : withElement k s = .next t) : t.Inv := by
  rcases withElement_cases h with ⟨hb, hk'⟩ | ⟨-, rfl⟩
  · exact hk _ hb hk'
  · exact State.inv_of_r_eq (State.raise_r ..) hs

/-! ### Commands, steps and runs -/

theorem exec_inv {i : Instr} {s t : State} (hs : s.Inv) (h : exec i s = .next t) : t.Inv := by
  cases i with
  | nop => exact hold_eq_next.1 h ▸ hs
  | clr => exact writeR_inv canonical_zero h
  | lds => exact writeR_inv (canonical_fromSmallInt _) h
  | ld => exact withElement_inv hs (fun _ hb => writeR_inv hb) h
  | add => exact withElement_inv hs (fun _ hb => withR_inv hs fun _ ha => writeR_inv (canonical_add ha hb)) h
  | mul00 => exact writeR_inv canonical_zero h
  | mul01 => exact withR_inv hs (fun _ ha => writeR_inv ha) h
  | mul10 => exact withR_inv hs (fun a _ => writeR_inv (canonical_mul10 a)) h
  | mul11 => exact withR_inv hs (fun _ ha => writeR_inv (canonical_mul11 ha)) h
  | mulbit b =>
    cases b with
    | false => exact writeR_inv canonical_zero h
    | true => exact withR_inv hs (fun _ ha => writeR_inv ha) h
  | mul => exact withElement_inv hs (fun b _ => withR_inv hs fun a _ => writeR_inv (canonical_mul a b)) h

theorem clockEdge_inv {s t : State} (hs : s.Inv) (h : clockEdge s = .next t) : t.Inv := by
  rcases clockEdge_cases h with rfl | ⟨-, -, rfl⟩ | ⟨-, -, -, ⟨-, -, rfl⟩ | ⟨i, -, hi⟩⟩
  · exact hs
  · exact State.inv_of_r_some (State.setR_r s 0) canonical_zero
  · exact State.inv_of_r_eq (State.raise_r ..) hs
  · exact exec_inv hs hi

/-- Settles O15: every edge keeps the invariant, and driving the ports does not touch `R`. -/
theorem everyStepKeepsTheRegisterCanonical : Obligations.EveryStepKeepsTheRegisterCanonical := by
  intro s t hs h
  obtain ⟨p, later, -, hedge⟩ := step_cases h
  exact clockEdge_inv (State.inv_of_r_eq (State.drive_r s p later) hs) hedge

/-- The induction along a run: what every supplied step keeps holds in the state the run reaches. -/
theorem runInputs_induction {P : State → Prop}
    (hstep : ∀ s p t, P s → step { s with pending := [p] } = .next t → P t)
    (s : State) (inputs : List StepInput) (hs : P s) : P (runInputs s inputs) := by
  induction inputs generalizing s with
  | nil => exact hs
  | cons p later ih =>
    unfold runInputs
    split
    · next t ht => exact ih t (hstep s p t hs ht)
    · exact hs
    · exact hs

theorem runInputs_inv (s : State) (inputs : List StepInput) (hs : s.Inv) : (runInputs s inputs).Inv :=
  runInputs_induction (fun s p t hs h => everyStepKeepsTheRegisterCanonical { s with pending := [p] } t hs h)
    s inputs hs

theorem State.inv_powerOn : State.powerOn.Inv := State.inv_of_r_none rfl

theorem State.inv_reset : State.reset.Inv := State.inv_of_r_some rfl canonical_zero

/-- Settles O16: both starting states meet the invariant, and a run keeps it. -/
theorem everyReachedRegisterIsCanonical : Obligations.EveryReachedRegisterIsCanonical := by
  refine ⟨fun inputs _ => ?_, fun s e₀ inputs hr he _ => ?_⟩
  · exact (State.inv_iff _).1 (runInputs_inv State.powerOn inputs State.inv_powerOn)
  · exact (State.inv_iff _).1 (runInputs_inv s inputs (State.inv_of_r_some hr he))

/-- Settles O14. -/
theorem resetAndPowerOnMeetTheInvariant : Obligations.ResetAndPowerOnMeetTheInvariant :=
  ⟨⟨rfl, rfl, State.q_of_no_fault rfl, State.inv_reset⟩, rfl, rfl, State.q_of_no_fault rfl, State.inv_powerOn⟩

end Sys2Proof.Machine
end

section
/-! The frame of a command (20_memory.md R36), and its independence from the operand bits it does not read
(30_encoding.md R49, R50). -/

namespace Sys2Proof.Machine

/-! ### The frame -/

/-- `exec_shape` read backwards, for a command that is known to answer `t`. -/
theorem exec_cases {i : Instr} {s t : State} (h : exec i s = .next t) :
    t = s ∨ (∃ e, t = s.setR e) ∨ ∃ c, t = s.raise c := by
  simpa [h] using exec_shape i s

/-- Settles O20: a command holds the state, or writes `R`, or sets the fault mark. -/
theorem commandsChangeOnlyRegisterOrFaultMark : Obligations.CommandsChangeOnlyRegisterOrFaultMark := by
  intro i s t h
  rcases exec_cases h with rfl | ⟨e, rfl⟩ | ⟨c, rfl⟩
  · exact ⟨rfl, rfl, .inl rfl⟩
  · exact ⟨s.setR_port e, s.setR_pending e, .inl (s.setR_fault e)⟩
  · exact ⟨s.raise_port c, s.raise_pending c, .inr (s.raise_r c)⟩

/-! ### Other inputs on the ports -/

theorem State.drive_setR (s : State) (p : StepInput) (later : List StepInput) (e : Element) :
    (s.drive p later).setR e = (s.setR e).drive p later := rfl

theorem smallOperand_drive {s : State} {p : StepInput} (later : List StepInput)
    (h : lo64 p.opnd = lo64 s.port.opnd) : smallOperand (s.drive p later) = smallOperand s := h

theorem hold_drive {s t : State} (p : StepInput) (later : List StepInput) (h : hold s = .next t) :
    hold (s.drive p later) = .next (t.drive p later) := by
  obtain rfl := hold_eq_next.1 h
  rfl

theorem writeR_drive {e : Element} {s t : State} (p : StepInput) (later : List StepInput)
    (h : writeR e s = .next t) : writeR e (s.drive p later) = .next (t.drive p later) := by
  obtain rfl := writeR_eq_next.1 h
  rw [writeR_eq_next, State.drive_setR]

/-- A command that maps `R` by `f` does not see the ports, unless it faults: the fault mark records them. -/
theorem withR_writeR_drive {f : Element → Element} {s t : State} (p : StepInput) (later : List StepInput)
    (h : withR (fun a => writeR (f a) s) s = .next t) (ht : t.fault = none) :
    withR (fun a => writeR (f a) (s.drive p later)) (s.drive p later) = .next (t.drive p later) := by
  rcases withR_cases h with ⟨a, hr, ha⟩ | ⟨-, rfl⟩
  · rw [withR_of_some ((s.drive_r p later).trans hr)]
    exact writeR_drive p later ha
  · cases ht

/-- LDS sees nothing of the ports but the low half of the operand. -/
theorem exec_lds_drive {s t : State} {p : StepInput} (later : List StepInput)
    (hlow : lo64 p.opnd = lo64 s.port.opnd) (h : exec .lds s = .next t) :
    exec .lds (s.drive p later) = .next (t.drive p later) := by
  rw [exec_lds, smallOperand_drive later hlow]
  exact writeR_drive p later h

/-- The eight commands that R50 names hold the state, write 0, or map `R`. -/
theorem exec_drive_of_opnd_unread {i : Instr} {s t : State} (p : StepInput) (later : List StepInput)
    (hi : i ∈ [Instr.nop, .clr, .mul00, .mul01, .mul10, .mul11, .mulbit false, .mulbit true])
    (h : exec i s = .next t) (ht : t.fault = none) :
    exec i (s.drive p later) = .next (t.drive p later) := by
  simp only [List.mem_cons, List.not_mem_nil, or_false] at hi
  rcases hi with rfl | rfl | rfl | rfl | rfl | rfl | rfl | rfl
  · exact hold_drive p later h
  · exact writeR_drive p later h
  · exact writeR_drive p later h
  · exact withR_writeR_drive p later h ht
  · exact withR_writeR_drive p later h ht
  · exact withR_writeR_drive p later h ht
  · exact writeR_drive p later h
  · exact withR_writeR_drive p later h ht

/-- Settles O25: with the other operand driven onto the bus the command answers the same, and by its frame it leaves the
inputs to come as they were. -/
theorem unreadOperandBitsChangeNothing : Obligations.UnreadOperandBitsChangeNothing := by
  intro i s t opnd hi _ h ht
  obtain ⟨-, hpending, -⟩ := commandsChangeOnlyRegisterOrFaultMark i s t h
  change exec i (s.drive { s.port with opnd := opnd } s.pending) =
    .next (t.drive { s.port with opnd := opnd } t.pending)
  rw [hpending]
  rcases hi with hi | ⟨rfl, hlow⟩
  · exact exec_drive_of_opnd_unread _ s.pending hi h ht
  · exact exec_lds_drive s.pending hlow h

end Sys2Proof.Machine
end

section
/-! The decoder row by row of the opcode map, and its agreement with the encoder (30_encoding.md R45, R46, R52, R54,
R55). -/

namespace Sys2Proof

/-! ### The fields of a word (R45) -/

@[simp] theorem Cmd.rsv_ofFields (rsv : BitVec 2) (sel : Sel) (op : BitVec 4) :
    (Cmd.ofFields rsv sel op).rsv = rsv :=
  (BitVec.extractLsb'_append_eq_of_le (by decide)).trans BitVec.extractLsb'_append_eq_left

@[simp] theorem Cmd.sel_ofFields (rsv : BitVec 2) (sel : Sel) (op : BitVec 4) :
    (Cmd.ofFields rsv sel op).sel = sel :=
  (BitVec.extractLsb'_append_eq_of_le (by decide)).trans BitVec.extractLsb'_append_eq_right

@[simp] theorem Cmd.op_ofFields (rsv : BitVec 2) (sel : Sel) (op : BitVec 4) : (Cmd.ofFields rsv sel op).op = op :=
  BitVec.extractLsb'_append_eq_right

theorem Cmd.ofFields_eq (cmd : Cmd) : Cmd.ofFields cmd.rsv cmd.sel cmd.op = cmd :=
  calc cmd.extractLsb' 6 2 ++ cmd.extractLsb' 4 2 ++ cmd.extractLsb' 0 4
      = cmd.extractLsb' 4 4 ++ cmd.extractLsb' 0 4 :=
      congrArg (· ++ _) (BitVec.extractLsb'_append_extractLsb'_eq_extractLsb' rfl)
    _ = cmd := BitVec.extractLsb'_append_extractLsb'

/-! ### The rows of the opcode map (R46) -/

/-- R46's commands without a selector, with their opcodes. -/
def plainRows : List (BitVec 4 × Instr) :=
  [(0b0000#4, .nop), (0b0001#4, .clr), (0b0010#4, .lds), (0b0011#4, .ld), (0b0100#4, .add), (0b0111#4, .mul)]

theorem op_mem_rows (op : BitVec 4) :
    op ∈ plainRows.map Prod.fst ∨ op = 0b0101#4 ∨ op = 0b0110#4 ∨ 8 ≤ op.toNat := by
  revert op; decide

/-- Every word stands in one row: it has reserved bits, or its opcode is that of a plain command, of the constant
multiplier, of MULBIT, or of no command. -/
theorem Cmd.rowCases {P : Cmd → Prop}
    (reservedBits : ∀ rsv sel op, rsv ≠ 0b00#2 → P (.ofFields rsv sel op))
    (plain : ∀ op i sel, (op, i) ∈ plainRows → P (.ofFields 0b00#2 sel op))
    (cmul : ∀ sel, P (.ofFields 0b00#2 sel 0b0101#4))
    (mulbit : ∀ sel, P (.ofFields 0b00#2 sel 0b0110#4))
    (reservedOpcode : ∀ sel op, 8 ≤ op.toNat → P (.ofFields 0b00#2 sel op))
    (cmd : Cmd) : P cmd := by
  rw [← cmd.ofFields_eq]
  by_cases hrsv : cmd.rsv = 0b00#2
  · rw [hrsv]
    rcases op_mem_rows cmd.op with h | h | h | h
    · obtain ⟨row, hrow, hop⟩ := List.mem_map.1 h
      exact hop ▸ plain row.1 row.2 _ hrow
    · exact h ▸ cmul _
    · exact h ▸ mulbit _
    · exact reservedOpcode _ _ h
  · exact reservedBits _ _ _ hrsv

theorem decode_reservedBits {rsv : BitVec 2} (h : rsv ≠ 0b00#2) (sel : Sel) (op : BitVec 4) :
    decode (.ofFields rsv sel op) = .illegal .reservedBits := by
  simp [decode, h]

theorem decode_plainRow {op : BitVec 4} {i : Instr} (h : (op, i) ∈ plainRows) (sel : Sel) :
    decode (.ofFields 0b00#2 sel op) = decodePlain i sel := by
  simp only [plainRows, List.mem_cons, Prod.mk.injEq, List.not_mem_nil, or_false] at h
  rcases h with ⟨rfl, rfl⟩ | ⟨rfl, rfl⟩ | ⟨rfl, rfl⟩ | ⟨rfl, rfl⟩ | ⟨rfl, rfl⟩ | ⟨rfl, rfl⟩ <;> simp [decode]

theorem decode_cmulRow (sel : Sel) : decode (.ofFields 0b00#2 sel 0b0101#4) = decodeCmul sel := by
  simp [decode]

theorem decode_mulbitRow (sel : Sel) : decode (.ofFields 0b00#2 sel 0b0110#4) = decodeMulbit sel := by
  simp [decode]

theorem decode_reservedOpcode {op : BitVec 4} (h : 8 ≤ op.toNat) (sel : Sel) :
    decode (.ofFields 0b00#2 sel op) = .illegal .reservedOpcode := by
  have hne : ∀ n : Nat, n < 8 → op ≠ BitVec.ofNat 4 n := by
    rintro n hn rfl
    rw [BitVec.toNat_ofNat] at h
    omega
  simp [decode, hne 0, hne 1, hne 2, hne 3, hne 4, hne 5, hne 6, hne 7]

theorem encode_plainRow {op : BitVec 4} {i : Instr} (h : (op, i) ∈ plainRows) :
    encode i = .ofFields 0b00#2 0b00#2 op :=
  (by decide : ∀ row ∈ plainRows, encode row.2 = .ofFields 0b00#2 0b00#2 row.1) _ h

/-! ### What a row's selector decodes to (R44, R45, R50) -/

theorem sel_cases (sel : Sel) : sel = 0b00#2 ∨ sel = 0b01#2 ∨ sel = 0b10#2 ∨ sel = 0b11#2 := by
  revert sel; decide

theorem decodePlain_eq_instr {i j : Instr} {sel : Sel} : decodePlain i sel = .instr j ↔ sel = 0b00#2 ∧ i = j := by
  unfold decodePlain
  split <;> simp [*]

theorem decodePlain_illegal {i : Instr} {sel : Sel} : (∃ why, decodePlain i sel = .illegal why) ↔ sel ≠ 0b00#2 := by
  unfold decodePlain
  split <;> simp [*]

/-- Every selector names a constant multiplier, and that command's word carries the selector. -/
theorem decodeCmul_encode (sel : Sel) :
    ∃ i, decodeCmul sel = .instr i ∧ encode i = .ofFields 0b00#2 sel 0b0101#4 := by
  unfold decodeCmul
  rcases sel_cases sel with rfl | rfl | rfl | rfl <;> exact ⟨_, rfl, rfl⟩

theorem decodeMulbit_eq_instr {i : Instr} {sel : Sel} :
    decodeMulbit sel = .instr i ↔ sel.getLsbD 1 = false ∧ .mulbit (sel.getLsbD 0) = i := by
  unfold decodeMulbit
  split <;> simp_all

theorem decodeMulbit_illegal {sel : Sel} : (∃ why, decodeMulbit sel = .illegal why) ↔ sel.getLsbD 1 = true := by
  unfold decodeMulbit
  split <;> simp_all

theorem encode_mulbitRow {sel : Sel} (h : sel.getLsbD 1 = false) :
    encode (.mulbit (sel.getLsbD 0)) = .ofFields 0b00#2 sel 0b0110#4 := by
  revert sel; decide

/-! ### Decode and encode agree -/

theorem decode_encode_of_plainRow {op : BitVec 4} {i : Instr} (h : (op, i) ∈ plainRows) :
    decode (encode i) = .instr i := by
  rw [encode_plainRow h, decode_plainRow h]
  exact decodePlain_eq_instr.2 ⟨rfl, rfl⟩

/-- Settles O1: the encoder writes the row's opcode, by which the decoder finds the row, and the selector that names the
instruction in it. -/
theorem decodeOfEncodeIsTheInstruction : Obligations.DecodeOfEncodeIsTheInstruction := by
  intro i
  cases i with
  | nop => exact decode_encode_of_plainRow (op := 0b0000#4) (by decide)
  | clr => exact decode_encode_of_plainRow (op := 0b0001#4) (by decide)
  | lds => exact decode_encode_of_plainRow (op := 0b0010#4) (by decide)
  | ld => exact decode_encode_of_plainRow (op := 0b0011#4) (by decide)
  | add => exact decode_encode_of_plainRow (op := 0b0100#4) (by decide)
  | mul => exact decode_encode_of_plainRow (op := 0b0111#4) (by decide)
  | mul00 => exact decode_cmulRow 0b00#2
  | mul01 => exact decode_cmulRow 0b01#2
  | mul10 => exact decode_cmulRow 0b10#2
  | mul11 => exact decode_cmulRow 0b11#2
  | mulbit b =>
    refine (decode_mulbitRow _).trans (decodeMulbit_eq_instr.2 ?_)
    cases b <;> decide

/-- Settles O2: a row decodes only the selectors that its instructions' words carry. -/
theorem decodedWordIsTheEncoding : Obligations.DecodedWordIsTheEncoding := by
  intro cmd i h
  cases cmd using Cmd.rowCases with
  | reservedBits rsv sel op hrsv =>
    rw [decode_reservedBits hrsv] at h
    cases h
  | plain op j sel hrow =>
    rw [decode_plainRow hrow] at h
    obtain ⟨rfl, rfl⟩ := decodePlain_eq_instr.1 h
    exact (encode_plainRow hrow).symm
  | cmul sel =>
    obtain ⟨j, hj, hencode⟩ := decodeCmul_encode sel
    rw [decode_cmulRow, hj] at h
    cases h
    exact hencode.symm
  | mulbit sel =>
    rw [decode_mulbitRow] at h
    obtain ⟨hsel, rfl⟩ := decodeMulbit_eq_instr.1 h
    exact (encode_mulbitRow hsel).symm
  | reservedOpcode sel op hop =>
    rw [decode_reservedOpcode hop] at h
    cases h

theorem decode_eq_instr_iff {cmd : Cmd} {i : Instr} : decode cmd = .instr i ↔ cmd = encode i :=
  ⟨decodedWordIsTheEncoding cmd i, fun h => h ▸ decodeOfEncodeIsTheInstruction i⟩

/-- Settles O3: each word is the encoding of its instruction. -/
theorem wordsOfTheOpcodeMapDecode : Obligations.WordsOfTheOpcodeMapDecode := by
  unfold Obligations.WordsOfTheOpcodeMapDecode
  simp only [decode_eq_instr_iff]
  decide

/-! ### Illegal words (R52) -/

/-- R52's list in terms of the fields. -/
def Cmd.ListedIllegal (cmd : Cmd) : Prop :=
  cmd.rsv ≠ 0b00#2 ∨ 8 ≤ cmd.op.toNat ∨ (cmd.op ∈ plainRows.map Prod.fst ∧ cmd.sel ≠ 0b00#2) ∨
    (cmd.op = 0b0110#4 ∧ cmd.sel.getLsbD 1 = true)

theorem plainRow_op {op : BitVec 4} {i : Instr} (h : (op, i) ∈ plainRows) : ¬8 ≤ op.toNat ∧ op ≠ 0b0110#4 :=
  (by decide : ∀ row ∈ plainRows, ¬8 ≤ row.1.toNat ∧ row.1 ≠ 0b0110#4) _ h

theorem decode_illegal_iff {cmd : Cmd} : (∃ why, decode cmd = .illegal why) ↔ cmd.ListedIllegal := by
  unfold Cmd.ListedIllegal
  cases cmd using Cmd.rowCases with
  | reservedBits rsv sel op hrsv => simp [decode_reservedBits hrsv, hrsv]
  | plain op i sel hrow =>
    obtain ⟨hlt, hne⟩ := plainRow_op hrow
    have hmem : op ∈ plainRows.map Prod.fst := List.mem_map_of_mem hrow
    simp only [decode_plainRow hrow, decodePlain_illegal, Cmd.rsv_ofFields, Cmd.sel_ofFields, Cmd.op_ofFields]
    tauto
  | cmul sel =>
    obtain ⟨i, hi, -⟩ := decodeCmul_encode sel
    simp [decode_cmulRow, hi, plainRows]
  | mulbit sel =>
    simp only [decode_mulbitRow, decodeMulbit_illegal, Cmd.rsv_ofFields, Cmd.sel_ofFields, Cmd.op_ofFields]
    simp [plainRows]
  | reservedOpcode sel op hop => simp [decode_reservedOpcode hop, hop]

theorem Cmd.getLsbD_sel_one (cmd : Cmd) : cmd.sel.getLsbD 1 = cmd.getLsbD 5 := by
  rw [Cmd.sel, BitVec.getLsbD_extractLsb', decide_eq_true (by decide), Bool.true_and]

namespace Machine

/-- An accepted illegal word sets the fault mark (R115). -/
theorem step_of_illegal {s : State} {p : StepInput} {later : List StepInput} {why : Illegal} (hf : s.fault = none)
    (hp : s.pending = p :: later) (hr : p.rst = false) (hv : p.cmdValid = true) (hd : decode p.cmd = .illegal why) :
    step s = .next ((s.drive p later).raise .illegalCommand) := by
  rw [step_of_cons hp, clockEdge_of_accept (s := s.drive p later) hf hr hv,
    acceptCommand_of_illegal (s := s.drive p later) hd, raiseFault]

end Machine

/-- Settles O4: row by row, the decoder refuses what the rule lists; an accepted step with such a word raises the
fault. -/
theorem illegalWordsAreRefusedAndFault : Obligations.IllegalWordsAreRefusedAndFault := by
  refine fun cmd => ⟨?_, fun s p later why hf hp hr hv hcmd hd => ?_⟩
  · rw [decode_illegal_iff, Cmd.ListedIllegal, Cmd.getLsbD_sel_one]
    rfl
  · subst hcmd
    exact Machine.step_of_illegal hf hp hr hv hd

/-! ### The twelve legal words (R54) -/

theorem encode_injective : Function.Injective encode := fun i _ h =>
  Decoded.instr.inj ((decodeOfEncodeIsTheInstruction i).symm.trans (decode_eq_instr_iff.2 h))

/-- Whether the decoder found an instruction. -/
def Decoded.isInstr : Decoded → Bool
  | .instr _ => true
  | .illegal _ => false

/-- Whether the decoder refused the word. -/
def Decoded.isIllegal : Decoded → Bool
  | .instr _ => false
  | .illegal _ => true

theorem Decoded.isInstr_iff {d : Decoded} : d.isInstr = true ↔ ∃ i, d = .instr i := by
  cases d <;> simp [Decoded.isInstr]

theorem Decoded.isIllegal_eq_not (d : Decoded) : d.isIllegal = decide ¬d.isInstr = true := by
  cases d <;> rfl

/-- The 11 instructions, MULBIT with each bit. -/
def allInstrs : List Instr :=
  [.nop, .clr, .lds, .ld, .add, .mul00, .mul01, .mul10, .mul11, .mulbit false, .mulbit true, .mul]

theorem mem_allInstrs (i : Instr) : i ∈ allInstrs := by
  cases i with
  | mulbit b => cases b <;> decide
  | _ => decide

/-- The legal words are the encodings of the instructions, each once. -/
theorem legalWords_perm :
    ((List.range 256).filter fun n => (decode (BitVec.ofNat 8 n)).isInstr).Perm
      (allInstrs.map fun i => (encode i).toNat) := by
  have hinj : Function.Injective fun i => (encode i).toNat := fun i j h => encode_injective (BitVec.eq_of_toNat_eq h)
  have hnodup : (allInstrs.map fun i => (encode i).toNat).Nodup := List.Nodup.map hinj (by decide)
  refine (List.perm_ext_iff_of_nodup (List.nodup_range.filter _) hnodup).2 fun n => ?_
  simp only [List.mem_filter, List.mem_range, List.mem_map, Decoded.isInstr_iff, decode_eq_instr_iff]
  constructor
  · rintro ⟨hn, i, hi⟩
    exact ⟨i, mem_allInstrs i, by rw [← hi, BitVec.toNat_ofNat, Nat.mod_eq_of_lt hn]⟩
  · rintro ⟨i, -, rfl⟩
    exact ⟨(encode i).isLt, i, BitVec.ofNat_toNat .. |>.trans (BitVec.setWidth_eq _)⟩

theorem countP_isInstr : (List.range 256).countP (fun n => (decode (BitVec.ofNat 8 n)).isInstr) = 12 := by
  rw [List.countP_eq_length_filter, legalWords_perm.length_eq, List.length_map]
  rfl

theorem countP_isIllegal : (List.range 256).countP (fun n => (decode (BitVec.ofNat 8 n)).isIllegal) = 244 := by
  have hsplit := List.length_eq_countP_add_countP (fun n => (decode (BitVec.ofNat 8 n)).isInstr) (l := List.range 256)
  rw [countP_isInstr, List.length_range] at hsplit
  simp only [Decoded.isIllegal_eq_not]
  omega

/-- Settles O5: the legal words are the images of `allInstrs` under an injective encoder, and the rest of the 256 are
illegal. -/
theorem twelveOfTheWordsAreLegal : Obligations.TwelveOfTheWordsAreLegal := by
  refine ⟨countP_isInstr, countP_isIllegal, fun i => ⟨encode i, decodeOfEncodeIsTheInstruction i⟩,
    fun i c d hc hd => ?_, fun h => ?_⟩
  · rw [decode_eq_instr_iff.1 hc, decode_eq_instr_iff.1 hd]
  · cases encode_injective h

end Sys2Proof
end

section
/-! The assembler's lines and checks (30_encoding.md R58). -/

namespace Sys2Proof.Machine

/-- CMUL's word carries the selector it is given. -/
theorem Line.input_cmul (bus : StepInput) (sel : Sel) :
    (Line.cmul sel).input bus = commandInput (.ofFields 0b00#2 sel 0b0101#4) bus.opnd := by
  rcases sel_cases sel with rfl | rfl | rfl | rfl <;> rfl

/-- Every line but RST and IDLE presents an accepted command. -/
theorem Line.input_eq_commandInput (bus : StepInput) {l : Line} (hrst : l ≠ .rst) (hidle : l ≠ .idle) :
    ∃ cmd opnd, l.input bus = commandInput cmd opnd := by
  cases l with
  | rst => exact absurd rfl hrst
  | idle => exact absurd rfl hidle
  | cmul sel => exact ⟨_, _, Line.input_cmul bus sel⟩
  | _ => exact ⟨_, _, rfl⟩

theorem Check.holds_q {s : State} {e : Element} : (Check.q e).holds s = true ↔ s.q = some e := beq_iff_eq

theorem Check.holds_eq {s : State} {opnd : Element} {b : Bool} :
    (Check.eq opnd b).holds s = true ↔ s.eq opnd = some b := beq_iff_eq

/-- Settles O6: most rows of the table are read off `Line.input`; CMUL's word and the two ports of the command lines are
the lemmas above. -/
theorem pseudoInstructionsExpandAsListed : Obligations.PseudoInstructionsExpandAsListed := by
  refine ⟨fun bus => rfl, fun bus => ⟨rfl, rfl⟩, fun bus => ⟨rfl, rfl⟩, fun bus => ⟨rfl, rfl, ?_⟩,
    fun bus => ⟨rfl, rfl⟩, fun bus sel => ?_, fun bus l hrst hidle => ?_, fun _ _ => Check.holds_q,
    fun _ _ _ => Check.holds_eq⟩
  · change (zext128 1).extractLsb' 0 64 = 1#64
    decide
  · rw [Line.input_cmul]
    rfl
  · obtain ⟨cmd, opnd, h⟩ := Line.input_eq_commandInput bus hrst hidle
    rw [h]
    exact ⟨rfl, rfl⟩

end Sys2Proof.Machine
end

section
/-! The constant multipliers as multiplications modulo f (30_encoding.md R44; 42_const_mult.md R77 to R81). -/

namespace Sys2Proof.Machine

open Polynomial

/-! ### Doubling as one shift and one fold (R79) -/

/-- Clearing bit 63 is adding it to itself. -/
theorem and_mask_eq_xor (h : Half) :
    h &&& 0x7fffffffffffffff#64 = h ^^^ (if h.getLsbD 63 then 0x8000000000000000#64 else 0#64) := by
  have mask : 0x7fffffffffffffff#64 = ~~~BitVec.twoPow 64 63 := by decide
  have top : 0x8000000000000000#64 = BitVec.twoPow 64 63 := by decide
  rw [mask, top]
  apply BitVec.eq_of_getLsbD_eq
  intro i hi
  rw [BitVec.getLsbD_and, BitVec.getLsbD_not, BitVec.getLsbD_xor, apply_ite (BitVec.getLsbD · i),
    BitVec.getLsbD_twoPow, BitVec.getLsbD_zero]
  by_cases h63 : 63 = i
  · subst h63
    cases h.getLsbD 63 <;> rfl
  · simp [h63, hi]

theorem lo64_shiftLeft_one (a : Element) : lo64 (a <<< 1) = lo64 a <<< 1 := by
  apply BitVec.eq_of_getLsbD_eq
  intro i hi
  simp only [lo64, BitVec.getLsbD_extractLsb', BitVec.getLsbD_shiftLeft, Nat.zero_add]
  cases i with
  | zero => rfl
  | succ i => simp [hi, show i + 1 < 128 by omega, show i < 64 by omega]

theorem hi64_shiftLeft_one (a : Element) :
    hi64 (a <<< 1) = (hi64 a <<< 1) ||| (if (lo64 a).getLsbD 63 then 1#64 else 0#64) := by
  apply BitVec.eq_of_getLsbD_eq
  intro i hi
  rw [BitVec.getLsbD_or, apply_ite (BitVec.getLsbD · i), BitVec.getLsbD_zero, BitVec.getLsbD_one]
  simp only [lo64, hi64, BitVec.getLsbD_extractLsb', BitVec.getLsbD_shiftLeft]
  cases i with
  | zero => simp
  | succ i => simp [hi, show 64 + (i + 1) < 128 by omega, show i < 64 by omega, show 64 + (i + 1) - 1 = 64 + i by omega]

theorem lo64_xor (a b : Element) : lo64 (a ^^^ b) = lo64 a ^^^ lo64 b := BitVec.extractLsb'_xor

theorem hi64_xor (a b : Element) : hi64 (a ^^^ b) = hi64 a ^^^ hi64 b := BitVec.extractLsb'_xor

theorem getLsbD_hi64_shiftLeft_one (a : Element) : (hi64 (a <<< 1)).getLsbD 63 = a.getLsbD 126 := by
  rw [hi64, BitVec.getLsbD_extractLsb', BitVec.getLsbD_shiftLeft]
  rfl

/-- Doubling shifts left by one and, where bit 126 moved into bit 127, takes f away. -/
theorem mul10_eq (a : Element) :
    mul10 a = (a <<< 1) ^^^ (if a.getLsbD 126 then 0x80000000000000008000000000000001#128 else 0) := by
  rw [← ofHalves_hi64_lo64 (_ ^^^ _), hi64_xor, lo64_xor, lo64_shiftLeft_one, mul10]
  rw [← hi64_shiftLeft_one, and_mask_eq_xor, getLsbD_hi64_shiftLeft_one]
  cases a.getLsbD 126 <;> rfl

theorem mk_poly_mul10 {a : Element} (ha : Canonical a) :
    AdjoinRoot.mk modulus (poly (mul10 a)) = AdjoinRoot.mk modulus (X * poly a) := by
  have shift : X * poly a = poly (a <<< 1) := by
    rw [X_mul_poly_eq_shiftLeft, ha, if_neg Bool.false_ne_true, mul_zero, add_zero]
  rw [mul10_eq, poly_xor, shift]
  split
  · rw [poly_modulusConstant, map_add, AdjoinRoot.mk_self, add_zero]
  · rw [poly_zero', add_zero]

/-- A canonical pattern is the remainder of every polynomial in its class. -/
theorem isBits_modF_of_mk_eq {e : Element} {p : (ZMod 2)[X]} (he : Canonical e)
    (h : AdjoinRoot.mk modulus (poly e) = AdjoinRoot.mk modulus p) : IsBits e (modF p) := by
  rw [mk_eq_mk_iff_modF_eq, modF_poly_of_canonical he] at h
  exact (isBits_iff _ _).2 h

/-! ### The four constants (R44) -/

theorem poly_sel_10 : poly 0b10#2 = X := (poly_twoPow (k := 1) (by decide)).trans (pow_one X)

theorem poly_sel_11 : poly 0b11#2 = 1 + X := by
  rw [show 0b11#2 = 0b01#2 ^^^ 0b10#2 by decide, poly_xor, poly_one (by decide), poly_sel_10]

theorem canonical_cmul {a : Element} (ha : Canonical a) (sel : Sel) : Canonical (cmul sel a) := by
  rcases sel_cases sel with rfl | rfl | rfl | rfl
  · exact canonical_zero
  · exact ha
  · exact canonical_mul10 a
  · exact canonical_mul11 ha

theorem mk_poly_cmul {a : Element} (ha : Canonical a) (sel : Sel) :
    AdjoinRoot.mk modulus (poly (cmul sel a)) = AdjoinRoot.mk modulus (poly sel * poly a) := by
  rcases sel_cases sel with rfl | rfl | rfl | rfl
  · rw [show cmul 0b00#2 a = 0 from rfl, poly_zero', poly_zero, zero_mul]
  · rw [show cmul 0b01#2 a = a from rfl, poly_one (by decide), one_mul]
  · rw [show cmul 0b10#2 a = mul10 a from rfl, mk_poly_mul10 ha, poly_sel_10]
  · rw [show cmul 0b11#2 a = add a (mul10 a) from rfl, poly_add, map_add, mk_poly_mul10 ha, ← map_add, poly_sel_11,
      add_mul, one_mul]

/-- Settles O44: the multiplexer's output is the canonical pattern of the product's class. -/
theorem selectorIsTheConstantItSelects : Obligations.SelectorIsTheConstantItSelects :=
  fun sel _ ha => isBits_modF_of_mk_eq (canonical_cmul ha sel) (mk_poly_cmul ha sel)

end Sys2Proof.Machine
end

section
/-! The element register's functions and commands (40_element_reg.md): `equals` (R67), `from_small_int` (R66), NOP, CLR,
LDS and LD (R61 to R64). -/

namespace Sys2Proof.Machine

/-! ### `equals` (R67) -/

theorem equals_eq_true_iff_halves {a b : Element} : equals a b = true ↔ lo64 a = lo64 b ∧ hi64 a = hi64 b := by
  rw [equals, Bool.and_eq_true, beq_iff_eq, beq_iff_eq]

theorem equals_eq_true_iff_getLsbD {a b : Element} :
    equals a b = true ↔ ∀ i < 128, a.getLsbD i = b.getLsbD i :=
  equals_eq_true_iff.trans ⟨fun h _ _ => h ▸ rfl, BitVec.eq_of_getLsbD_eq⟩

theorem equals_comm (a b : Element) : equals a b = equals b a := by
  rw [Bool.eq_iff_iff, equals_eq_true_iff, equals_eq_true_iff, eq_comm]

theorem equals_trans {a b c : Element} (hab : equals a b = true) (hbc : equals b c = true) : equals a c = true :=
  equals_eq_true_iff.2 ((equals_eq_true_iff.1 hab).trans (equals_eq_true_iff.1 hbc))

/-- Canonical patterns stand for field elements one to one, so that comparing the bits compares the classes. -/
theorem equals_eq_true_iff_mk_poly_eq {a b : Element} (ha : Canonical a) (hb : Canonical b) :
    equals a b = true ↔ AdjoinRoot.mk modulus (poly a) = AdjoinRoot.mk modulus (poly b) :=
  equals_eq_true_iff.trans ⟨fun h => h ▸ rfl, eq_of_mk_poly_eq ha hb⟩

/-- Settles O37. -/
theorem equalsComparesAllBits : Obligations.EqualsComparesAllBits :=
  ⟨fun _ _ => equals_eq_true_iff, fun _ _ => equals_eq_true_iff_getLsbD, fun _ _ => equals_eq_true_iff_halves,
    fun _ => equals_eq_true_iff.2 rfl, equals_comm, fun _ _ _ => equals_trans,
    fun _ _ => equals_eq_true_iff_mk_poly_eq,
    fun _ _ opnd hf hr => State.eq_of_q_some ((State.q_of_no_fault hf).trans hr) opnd⟩

/-! ### `from_small_int` (R66) -/

@[simp] theorem lo64_ofHalves (h l : Half) : lo64 (ofHalves h l) = l := BitVec.extractLsb'_append_eq_right

@[simp] theorem hi64_ofHalves (h l : Half) : hi64 (ofHalves h l) = h := BitVec.extractLsb'_append_eq_left

theorem lo64_fromSmallInt (v : Half) : lo64 (fromSmallInt v) = v := lo64_ofHalves 0 v

theorem hi64_fromSmallInt (v : Half) : hi64 (fromSmallInt v) = 0 := hi64_ofHalves 0 v

/-- Settles O39: the sum is `poly v`, and `from_small_int` keeps the polynomial. -/
theorem smallIntegersLiftWithoutReduction : Obligations.SmallIntegersLiftWithoutReduction :=
  fun v => ⟨rfl, canonical_fromSmallInt v, (isBits_iff _ _).2 (poly_fromSmallInt v)⟩

/-! ### Steps that only sample the ports -/

/-- A faulted state takes the input and keeps all else (R119). -/
theorem step_of_fault {s : State} {p : StepInput} {later : List StepInput} (hp : s.pending = p :: later)
    (hf : s.fault ≠ none) : step s = .next (s.drive p later) := by
  obtain ⟨f, hf⟩ := Option.ne_none_iff_exists'.1 hf
  rw [step_of_cons hp, clockEdge_of_fault (s := s.drive p later) hf, hold]

theorem step_of_idle {s : State} {p : StepInput} {later : List StepInput} (hp : s.pending = p :: later)
    (hr : p.rst = false) (hv : p.cmdValid = false) : step s = .next (s.drive p later) := by
  by_cases hf : s.fault = none
  · rw [step_of_cons hp, clockEdge_of_idle (s := s.drive p later) hf hr hv, hold]
  · exact step_of_fault hp hf

theorem step_of_nop {s : State} {p : StepInput} {later : List StepInput} (hp : s.pending = p :: later)
    (hr : p.rst = false) (hv : p.cmdValid = true) (hc : p.cmd = encode .nop) : step s = .next (s.drive p later) := by
  by_cases hf : s.fault = none
  · rw [step_of_instr hf hp hr hv (decode_eq_instr_iff.2 hc), exec_nop, hold]
  · exact step_of_fault hp hf

/-! ### The four commands (R61 to R64) -/

/-- Settles O26: a NOP step and an idle step both only sample the ports, with a fault or without. -/
theorem nopHoldsTheState : Obligations.NopHoldsTheState :=
  ⟨rfl, fun _ => rfl, fun _ _ _ _ hr hv hc hir hiv => ⟨step_of_nop rfl hr hv hc, step_of_idle rfl hir hiv⟩⟩

/-- Settles O27: CLR is a write of 0; a faulted state takes no command. -/
theorem clrWritesZero : Obligations.ClrWritesZero :=
  ⟨rfl, fun s _ => exec_clr s, fun _ _ _ hp _ _ _ => step_of_fault hp⟩

/-- Settles O28: the element is `from_small_int` of the operand's low half, so a value of that half fixes it. -/
theorem ldsWritesTheZeroExtendedLowHalf : Obligations.LdsWritesTheZeroExtendedLowHalf := by
  refine ⟨rfl, fun s _ => ⟨fromSmallInt (smallOperand s), exec_lds s, lo64_fromSmallInt _, hi64_fromSmallInt _,
    fun h => ?_, fun h => ?_, fun h => ?_⟩⟩
  · exact (congrArg fromSmallInt h).trans (by decide)
  · exact (congrArg fromSmallInt h).trans (by decide)
  · rw [smallOperand, h]
    decide

theorem exec_ld_of_bit127 {s : State} (h : s.port.opnd.getLsbD 127 = true) :
    exec .ld s = raiseFault .nonCanonicalOperand s := by
  rw [exec_ld, withElement_of_bit127 h]

/-- Settles O29: bit 127 of the operand decides between the write and the fault. -/
theorem ldLoadsACanonicalElement : Obligations.LdLoadsACanonicalElement :=
  ⟨rfl, fun _ _ => ⟨exec_ld_of_canonical, exec_ld_of_bit127⟩⟩

end Sys2Proof.Machine
end

section
/-! The addition of elements and the ADD command (41_add.md R71, R72). -/

namespace Sys2Proof.Machine

/-! ### `add` (R71) -/

theorem getLsbD_add (a b : Element) (i : Nat) : (add a b).getLsbD i = (a.getLsbD i ^^ b.getLsbD i) :=
  BitVec.getLsbD_xor

theorem add_same_eq_zero (a : Element) : add a a = 0 := BitVec.xor_self

theorem add_zero_right (a : Element) : add a 0 = a := BitVec.xor_zero

/-- Settles O40: XOR of bits is addition of coefficients in GF(2). -/
theorem addIsPolynomialAddition : Obligations.AddIsPolynomialAddition :=
  fun a b => ⟨fun i _ => getLsbD_add a b i, (isBits_iff _ _).2 (poly_add a b), canonical_add⟩

/-! ### Commands that read the operand and then `R` (60_exceptions.md R118) -/

theorem withElement_withR_of_some {k : Element → Element → Result} {s : State} {a : Element}
    (hb : Canonical s.port.opnd) (hr : s.r = some a) :
    withElement (fun b => withR (fun a => k a b) s) s = k a s.port.opnd := by
  rw [withElement_of_canonical hb, withR_of_some hr]

theorem withElement_withR_of_none {k : Element → Element → Result} {s : State}
    (hb : Canonical s.port.opnd) (hr : s.r = none) :
    withElement (fun b => withR (fun a => k a b) s) s = raiseFault .undefinedRead s := by
  rw [withElement_of_canonical hb, withR_of_none hr]

/-! ### ADD (R72) -/

theorem exec_add_of_add_eq {s : State} {a c : Element} (hb : Canonical s.port.opnd) (hr : s.r = some a)
    (hc : add a s.port.opnd = c) : exec .add s = writeR c s := by
  rw [exec_add, withElement_withR_of_some hb hr, hc]

theorem exec_add_of_r_none {s : State} (hb : Canonical s.port.opnd) (hr : s.r = none) :
    exec .add s = raiseFault .undefinedRead s := by
  rw [exec_add, withElement_withR_of_none hb hr]

theorem exec_add_of_bit127 {s : State} (hb : s.port.opnd.getLsbD 127 = true) :
    exec .add s = raiseFault .nonCanonicalOperand s := by
  rw [exec_add, withElement_of_bit127 hb]

/-- Settles O30: with a canonical operand and a value in `R` the command writes their sum, and the rule's corner values
are values of that sum. -/
theorem addWritesTheXor : Obligations.AddWritesTheXor := by
  refine ⟨rfl, fun s a _ hb hr => ?_, fun _ _ => exec_add_of_bit127, fun _ _ => exec_add_of_r_none⟩
  refine ⟨exec_add_of_add_eq hb hr rfl, fun ha => canonical_add ha hb, fun hopnd => ?_, fun hopnd => ?_,
    fun ha hopnd => ?_⟩
  · exact exec_add_of_add_eq hb hr (by rw [hopnd, add_same_eq_zero])
  · exact exec_add_of_add_eq hb hr (by rw [hopnd, add_zero_right])
  · exact exec_add_of_add_eq hb hr (by rw [ha, hopnd]; decide)

end Sys2Proof.Machine
end

section
/-! The constant multipliers (42_const_mult.md R79 to R81, R87) and the commands MUL00 to MUL11 and MULBIT (R83 to R86,
R88). -/

namespace Sys2Proof.Machine

open Polynomial

/-! ### Doubling bit by bit (R79) -/

theorem getLsbD_modulusConstant (i : Nat) :
    (0x80000000000000008000000000000001#128).getLsbD i = decide (i = 0 ∨ i = 63 ∨ i = 127) := by
  by_cases h : i < 128
  · revert i
    decide
  · rw [BitVec.getLsbD_of_ge _ i (by omega), eq_comm, decide_eq_false_iff_not]
    omega

theorem getLsbD_mul10 (a : Element) {i : Nat} (hi : i < 128) :
    (mul10 a).getLsbD i =
      ((0 < i && a.getLsbD (i - 1)) ^^ (a.getLsbD 126 && decide (i = 0 ∨ i = 63 ∨ i = 127))) := by
  rw [mul10_eq, BitVec.getLsbD_xor, BitVec.getLsbD_shiftLeft, apply_ite (BitVec.getLsbD · i),
    getLsbD_modulusConstant]
  cases a.getLsbD 126 <;> simp [hi, Nat.pos_iff_ne_zero]

/-- Settles O41: f is added where bit 126 is set, and below bit 127 its bits are 0 and 63. -/
theorem doublingShiftsAndFoldsBit126 : Obligations.DoublingShiftsAndFoldsBit126 := by
  refine fun a => ⟨?_, ?_, fun i h0 h63 h127 => ?_, canonical_mul10 a⟩
  · rw [getLsbD_mul10 a (by decide)]
    simp
  · rw [getLsbD_mul10 a (by decide)]
    simp
  · rw [getLsbD_mul10 a (by omega)]
    simp [h0, h63, h0.ne', h127.ne]

/-! ### The constant multipliers modulo f (R80, R81, R87) -/

/-- Settles O42. -/
theorem doublingMultipliesByX : Obligations.DoublingMultipliesByX :=
  fun a ha => isBits_modF_of_mk_eq (canonical_mul10 a) (mk_poly_mul10 ha)

/-- Settles O43: `mul_11` is what the selector 11 picks, and its constant is 1 + x. -/
theorem mulElevenMultipliesByXPlusOne : Obligations.MulElevenMultipliesByXPlusOne := by
  refine fun a => ⟨rfl, rfl, fun ha => ⟨?_, canonical_mul11 ha⟩⟩
  rw [add_comm, ← poly_sel_11]
  exact selectorIsTheConstantItSelects 0b11#2 a ha

/-- Both are the canonical pattern of one class. -/
theorem mul_fromSmallInt_eq_cmul {a : Element} (ha : Canonical a) (sel : Sel) :
    mul a (fromSmallInt (sel.setWidth 64)) = cmul sel a := by
  refine eq_of_mk_poly_eq (canonical_mul _ _) (canonical_cmul ha sel) ?_
  rw [mk_poly_mul, mk_poly_cmul ha, poly_fromSmallInt, poly_setWidth sel (by decide), map_mul, mul_comm]

/-- Settles O45: the small integers 0 to 3 are the selectors. -/
theorem constantMultipliersAgreeWithMul : Obligations.ConstantMultipliersAgreeWithMul :=
  fun _ ha => ⟨mul_fromSmallInt_eq_cmul ha 0b00#2, mul_fromSmallInt_eq_cmul ha 0b01#2,
    mul_fromSmallInt_eq_cmul ha 0b10#2, mul_fromSmallInt_eq_cmul ha 0b11#2⟩

/-! ### The commands (R83 to R86, R88) -/

/-- Writing the value that `R` holds changes nothing. -/
theorem writeR_of_r_eq_some {s : State} {a : Element} (hr : s.r = some a) : writeR a s = hold s := by
  rw [writeR, State.setR, ← hr, hold]

theorem exec_mul01_of_some {s : State} {a : Element} (hr : s.r = some a) : exec .mul01 s = hold s := by
  rw [exec_mul01, withR_of_some hr, writeR_of_r_eq_some hr]

theorem exec_mul10_of_some {s : State} {a : Element} (hr : s.r = some a) : exec .mul10 s = writeR (mul10 a) s := by
  rw [exec_mul10, withR_of_some hr]

theorem exec_mul11_of_some {s : State} {a : Element} (hr : s.r = some a) : exec .mul11 s = writeR (mul11 a) s := by
  rw [exec_mul11, withR_of_some hr]

theorem exec_mulbit_false_eq_mul00 (s : State) : exec (.mulbit false) s = exec .mul00 s := rfl

theorem exec_mulbit_true_eq_mul01 (s : State) : exec (.mulbit true) s = exec .mul01 s := rfl

/-- Settles O31. -/
theorem mulByZeroConstantWritesZero : Obligations.MulByZeroConstantWritesZero :=
  ⟨rfl, fun s _ => ⟨exec_mul00 s, (exec_mul00 s).trans (exec_clr s).symm⟩⟩

/-- Settles O32: a value in `R` is written back, and its absence is the fault of every read. -/
theorem mulByOneConstantKeepsADefinedRegister : Obligations.MulByOneConstantKeepsADefinedRegister :=
  ⟨rfl, fun s _ _ hr => ⟨exec_mul01_of_some hr, (exec_mul01_of_some hr).trans (exec_nop s).symm⟩,
    fun _ _ => withR_of_none⟩

/-- Settles O33: the rule's corner values are values of `mul10`. -/
theorem mulByXConstantDoublesTheRegister : Obligations.MulByXConstantDoublesTheRegister :=
  ⟨rfl, fun _ _ _ => exec_mul10_of_some, fun _ _ => withR_of_none, by decide⟩

/-- Settles O34: the rule's corner values and its example are values of `mul11`. -/
theorem mulByXPlusOneConstantAddsTheDouble : Obligations.MulByXPlusOneConstantAddsTheDouble :=
  ⟨rfl, fun _ _ _ => exec_mul11_of_some, fun _ _ => withR_of_none, by decide⟩

/-- 0x26 and 0x36 are MULBIT with `sel[1] = 1` (R52). -/
theorem decode_mulbit_sel_one {cmd : Cmd} (h : cmd = 0x26#8 ∨ cmd = 0x36#8) :
    decode cmd = .illegal .mulbitSelector := by
  rcases h with rfl | rfl <;> decide

/-- Settles O35: MULBIT acts as MUL00 or as MUL01, and the two words next to its own are illegal. -/
theorem mulbitGatesTheRegister : Obligations.MulbitGatesTheRegister := by
  refine ⟨rfl, rfl, fun s _ => ⟨?_, exec_mulbit_false_eq_mul00 s, exec_mulbit_true_eq_mul01 s⟩,
    fun s _ _ hr => ?_, fun s _ hr => ?_, fun _ _ _ hf hp hr hv hc => ?_⟩
  · exact exec_mulbit_false s
  · exact (exec_mulbit_true_eq_mul01 s).trans (exec_mul01_of_some hr)
  · exact (exec_mulbit_true s).trans (withR_of_none hr)
  · exact step_of_illegal hf hp hr hv (decode_mulbit_sel_one hc)

end Sys2Proof.Machine
end

section
/-! The carry-less multiply and the Karatsuba unit (43_mult_karatsuba.md): R91's convolution and R93's laws of `clmul64`,
the product of R96 and its width, and R97's bound on the cross term. -/

namespace Sys2Proof.Machine

open Polynomial

/-! ### Degrees -/

theorem degree_lt_add_one_iff {p : (ZMod 2)[X]} {n : ℕ} : p.degree < (n + 1 : ℕ) ↔ p.degree ≤ n := by
  simp only [degree_lt_iff_coeff_zero, degree_le_iff_coeff_zero, Nat.cast_lt, Order.add_one_le_iff]

/-- Factors of degree at most m and n have a product of degree at most m + n. -/
theorem degree_mul_lt_of_lt {p q : (ZMod 2)[X]} {m n : ℕ} (hp : p.degree < (m + 1 : ℕ))
    (hq : q.degree < (n + 1 : ℕ)) : (p * q).degree < (m + n + 1 : ℕ) := by
  rw [degree_lt_add_one_iff] at hp hq ⊢
  exact degree_mul_le_of_le hp hq

theorem getLsbD_of_degree_poly_lt {n d i : Nat} {v : BitVec n} (h : (poly v).degree < d) (hi : d ≤ i) :
    v.getLsbD i = false := by
  have h0 := (degree_lt_iff_coeff_zero (poly v) d).1 h i hi
  rw [coeff_poly] at h0
  exact Bool.eq_false_iff.2 fun h1 => by simp [h1] at h0

/-! ### The convolution (R91) -/

/-- The coefficient of x^k in a product counts, modulo 2, the pairs of 1 bits that meet at k. -/
theorem coeff_poly_mul_poly {m n : Nat} (a : BitVec m) (b : BitVec n) (k : Nat) :
    (poly a * poly b).coeff k =
      (((Finset.range m ×ˢ Finset.range n).filter fun ij =>
        ij.1 + ij.2 = k ∧ a.getLsbD ij.1 = true ∧ b.getLsbD ij.2 = true).card : ZMod 2) := by
  have pair : ∀ i j, ((if a.getLsbD i then X ^ i else 0) * if b.getLsbD j then X ^ j else 0 : (ZMod 2)[X]).coeff k =
      if i + j = k ∧ a.getLsbD i = true ∧ b.getLsbD j = true then 1 else 0 := by
    intro i j
    cases a.getLsbD i <;> cases b.getLsbD j <;> simp [← pow_add, coeff_X_pow, eq_comm]
  simp only [poly, Finset.sum_mul_sum, finsetSum_coeff, pair]
  rw [← Finset.sum_product', Finset.sum_boole]

/-- No pair of bits meets above 63 + 63. -/
theorem getLsbD_clmul64_127 (a b : Half) : (clmul64 a b).getLsbD 127 = false := by
  refine getLsbD_of_degree_poly_lt (d := 63 + 63 + 1) ?_ le_rfl
  rw [poly_clmul64]
  exact degree_mul_lt_of_lt (degree_poly_lt a) (degree_poly_lt b)

/-- Settles O46: the bits of `clmul64` are the coefficients of the product of the polynomials. -/
theorem clmulIsTheXorConvolution : Obligations.ClmulIsTheXorConvolution := by
  refine fun a b => ⟨fun k _ => ?_, getLsbD_clmul64_127 a b, poly_clmul64 a b⟩
  rw [← ZMod.natCast_eq_one_iff_odd, ← coeff_poly_mul_poly, ← poly_clmul64, coeff_poly]
  cases (clmul64 a b).getLsbD k <;> simp

/-! ### The laws of `clmul64` (R93) -/

theorem clmul64_comm (a b : Half) : clmul64 a b = clmul64 b a :=
  poly_injective (by rw [poly_clmul64, poly_clmul64, mul_comm])

theorem clmul64_xor (a b c : Half) : clmul64 a (b ^^^ c) = clmul64 a b ^^^ clmul64 a c :=
  poly_injective (by simp only [poly_xor, poly_clmul64, mul_add])

theorem clmul64_zero (a : Half) : clmul64 a 0 = 0 :=
  poly_injective (by rw [poly_clmul64, poly_zero', mul_zero, poly_zero'])

theorem clmul64_twoPow (a : Half) {k : Nat} (hk : k ≤ 63) : clmul64 a (BitVec.twoPow 64 k) = zext128 a <<< k :=
  poly_injective (by
    rw [poly_clmul64, poly_twoPow (by omega), poly_zext128_shiftLeft a (by omega), mul_comm])

theorem clmul64_one (a : Half) : clmul64 a 1#64 = zext128 a := by
  rw [← BitVec.twoPow_zero, clmul64_twoPow a (Nat.zero_le 63), BitVec.shiftLeft_zero]

/-- Settles O47: the laws are those of the product of polynomials; the examples are evaluated. -/
theorem clmulLaws : Obligations.ClmulLaws := by
  refine ⟨clmul64_comm, clmul64_xor, clmul64_one, clmul64_zero, fun a k hk => ?_, by decide⟩
  have bit : BitVec.ofNat 64 (2 ^ k) = BitVec.twoPow 64 k :=
    BitVec.eq_of_toNat_eq (by rw [BitVec.toNat_ofNat, BitVec.toNat_twoPow])
  rw [bit]
  exact clmul64_twoPow a hk

/-! ### The width of the product (R96) -/

/-- The product of canonical elements has degree at most 126 + 126 = 252. -/
theorem getLsbD_karatsuba_snd_of_canonical {a b : Element} (ha : Canonical a) (hb : Canonical b) {i : Nat}
    (hi : 125 ≤ i) : (karatsuba a b).2.getLsbD i = false := by
  have top : ((karatsuba a b).2 ++ (karatsuba a b).1).getLsbD (128 + i) = false := by
    refine getLsbD_of_degree_poly_lt (d := 126 + 126 + 1) ?_ (by omega)
    rw [poly_karatsuba]
    exact degree_mul_lt_of_lt (degree_poly_of_canonical ha) (degree_poly_of_canonical hb)
  rwa [BitVec.getLsbD_append, if_neg (by omega), Nat.add_sub_cancel_left] at top

/-- Settles O48: Karatsuba's words are the product, its degree bounds the high word, and the largest element's square is
evaluated. -/
theorem karatsubaIsTheExactProduct : Obligations.KaratsubaIsTheExactProduct := by
  refine ⟨fun a b => (isBits_iff _ _).2 (poly_karatsuba a b), fun a b ha hb => ?_, by decide⟩
  apply BitVec.eq_of_getLsbD_eq
  intro i hi
  rw [BitVec.getLsbD_extractLsb', getLsbD_karatsuba_snd_of_canonical ha hb (Nat.le_add_right 125 i)]
  simp

/-! ### The cross term (R97) -/

theorem getLsbD_karatsubaMid_127 (a b : Element) : (karatsubaMid a b).getLsbD 127 = false := by
  simp only [karatsubaMid, karatsubaLo, karatsubaHi, clmulSel, BitVec.getLsbD_xor, getLsbD_clmul64_127, Bool.xor_false]

/-- The part of the cross term that is folded into `hi` ends at bit 62. -/
theorem getLsbD_zext128_hi64_karatsubaMid (a b : Element) {i : Nat} (hi : 63 ≤ i) :
    (zext128 (hi64 (karatsubaMid a b))).getLsbD i = false := by
  rw [zext128, BitVec.getLsbD_setWidth, hi64, BitVec.getLsbD_extractLsb']
  rcases hi.eq_or_lt with rfl | h64
  · simp only [Nat.reduceAdd, getLsbD_karatsubaMid_127, Bool.and_false]
  · simp [show ¬ i < 64 by omega]

/-- Settles O49: `mid` is a sum of `clmul64` results, none of which has a bit 127. -/
theorem crossTermFoldsIntoTheLowBitsOfHi : Obligations.CrossTermFoldsIntoTheLowBitsOfHi := by
  refine fun a b => ⟨getLsbD_karatsubaMid_127 a b, fun i hi => ?_⟩
  rw [karatsuba, BitVec.getLsbD_xor, getLsbD_zext128_hi64_karatsubaMid a b hi, Bool.xor_false]

end Sys2Proof.Machine
end

section
/-! The reduction, the general multiplier and the MUL command (44_reduce_mul.md): `reduce` as the remainder modulo f (R101,
R103), `mul` as the product modulo f with its laws (R104, R106), and MUL (R105). -/

namespace Sys2Proof.Machine

open Polynomial

/-! ### `reduce` (R101, R103) -/

/-- Settles O50: the result is the canonical pattern of its input's class; x^128 and x^64 + x differ by a multiple of f. -/
theorem reduceIsTheRemainderModuloF : Obligations.ReduceIsTheRemainderModuloF := by
  refine ⟨fun lo hi => ⟨?_, canonical_reduce lo hi⟩, ?_⟩
  · exact isBits_modF_of_mk_eq (canonical_reduce lo hi) (mk_poly_reduce lo hi)
  · rw [← mk_eq_mk_iff_modF_eq, X_pow_128_eq, add_comm, mk_add_mul_modulus]

/-- The high half of a canonical product ends at bit 60, the coefficient of x^252. -/
theorem hi64_karatsuba_snd_lt {a b : Element} (ha : Canonical a) (hb : Canonical b) :
    (hi64 (karatsuba a b).2).toNat < 2 ^ 61 := by
  refine Nat.lt_pow_two_of_testBit _ fun i hi => ?_
  rw [BitVec.testBit_toNat, hi64, BitVec.getLsbD_extractLsb', getLsbD_karatsuba_snd_of_canonical ha hb (by omega),
    Bool.and_false]

/-- Settles O51: the degree of a canonical product bounds the high word; the rule's table is evaluated. -/
theorem reduceOfCanonicalProductsAndWorkedValues : Obligations.ReduceOfCanonicalProductsAndWorkedValues :=
  ⟨fun _ _ ha hb => ⟨getLsbD_karatsuba_snd_of_canonical ha hb (by decide), hi64_karatsuba_snd_lt ha hb⟩, by decide⟩

/-! ### `mul` (R104) -/

/-- Settles O52: the result is the canonical pattern of the product's class. -/
theorem mulIsTheFieldProduct : Obligations.MulIsTheFieldProduct := by
  refine fun a b => ⟨rfl, fun _ _ => isBits_modF_of_mk_eq (canonical_mul a b) ?_⟩
  rw [mk_poly_mul, map_mul]

/-! ### The laws of `mul` (R106)

A canonical element is the product as soon as its class is; so each law is the law of the ring of classes. -/

theorem mul_eq_of_mk_poly_eq {a b c : Element} (hc : Canonical c)
    (h : AdjoinRoot.mk modulus (poly a) * AdjoinRoot.mk modulus (poly b) = AdjoinRoot.mk modulus (poly c)) :
    mul a b = c :=
  eq_of_mk_poly_eq (canonical_mul a b) hc ((mk_poly_mul a b).trans h)

theorem elementMul_comm (a b : Element) : mul a b = mul b a :=
  mul_eq_of_mk_poly_eq (canonical_mul b a) (by rw [mk_poly_mul, mul_comm])

theorem elementMul_assoc (a b c : Element) : mul (mul a b) c = mul a (mul b c) :=
  mul_eq_of_mk_poly_eq (canonical_mul _ _) (by simp only [mk_poly_mul, mul_assoc])

theorem elementMul_add (a b c : Element) : mul a (add b c) = add (mul a b) (mul a c) :=
  mul_eq_of_mk_poly_eq (canonical_add (canonical_mul a b) (canonical_mul a c))
    (by simp only [poly_add, map_add, mk_poly_mul, mul_add])

theorem elementMul_one {a : Element} (ha : Canonical a) : mul a (fromSmallInt 1) = a :=
  mul_eq_of_mk_poly_eq ha (by rw [poly_fromSmallInt_one, map_one, mul_one])

theorem elementMul_zero (a : Element) : mul a 0 = 0 :=
  mul_eq_of_mk_poly_eq canonical_zero (by rw [poly_zero', map_zero, mul_zero])

theorem zero_elementMul (a : Element) : mul 0 a = 0 := (elementMul_comm 0 a).trans (elementMul_zero a)

/-- Settles O53: only the law of 1 needs a canonical element. -/
theorem mulLaws : Obligations.MulLaws :=
  fun a b c ha _ _ => ⟨elementMul_comm a b, elementMul_assoc a b c, elementMul_add a b c, elementMul_one ha,
    elementMul_zero a, canonical_mul a b⟩

/-! ### MUL (R105) -/

theorem exec_mul_of_some {s : State} {a : Element} (hb : Canonical s.port.opnd) (hr : s.r = some a) :
    exec .mul s = writeR (mul a s.port.opnd) s := by
  rw [exec_mul, withElement_withR_of_some hb hr]

theorem exec_mul_of_r_none {s : State} (hb : Canonical s.port.opnd) (hr : s.r = none) :
    exec .mul s = raiseFault .undefinedRead s := by
  rw [exec_mul, withElement_withR_of_none hb hr]

theorem exec_mul_of_bit127 {s : State} (hb : s.port.opnd.getLsbD 127 = true) :
    exec .mul s = raiseFault .nonCanonicalOperand s := by
  rw [exec_mul, withElement_of_bit127 hb]

theorem elementMul_eq_zero_of_factor {a b : Element} (h : b = 0 ∨ a = 0) : mul a b = 0 := by
  obtain rfl | rfl := h
  · exact elementMul_zero a
  · exact zero_elementMul b

/-- The constant multipliers of R87, with the small integers 1 to 3 written as elements. -/
theorem elementMul_one_two_three {a : Element} (ha : Canonical a) :
    mul a 1 = a ∧ mul a 2 = mul10 a ∧ mul a 3 = mul11 a := by
  obtain ⟨-, one, two, three⟩ := constantMultipliersAgreeWithMul a ha
  exact ⟨one, two, three⟩

/-- Settles O36: with a canonical operand and a value in `R` the command writes their product; the rule's corner values are
values of `mul`. -/
theorem mulWritesTheReducedProduct : Obligations.MulWritesTheReducedProduct := by
  refine ⟨rfl, fun s a _ hb hr => ⟨mul a s.port.opnd, exec_mul_of_some hb hr, rfl, canonical_mul _ _,
    elementMul_eq_zero_of_factor, fun ha => ?_, ?_, ?_, ?_, ?_⟩,
    fun _ _ => exec_mul_of_bit127, fun _ _ => exec_mul_of_r_none⟩
  · obtain ⟨one, two, three⟩ := elementMul_one_two_three ha
    exact ⟨fun h => h ▸ one, fun h => h ▸ two, fun h => h ▸ three⟩
  all_goals
    intro ha hopnd
    rw [hopnd, ha]
    decide

end Sys2Proof.Machine
end

section
/-! Which commands read the operand as an element and which read `R` (30_encoding.md R48; 60_exceptions.md R116, R117), and
the faults that follow from it: at most one per step, in the order of 60_exceptions.md R118. -/

namespace Sys2Proof

/-! ### The readers -/

theorem Instr.readsElement_iff {i : Instr} : i.readsElement = true ↔ i = .ld ∨ i = .add ∨ i = .mul := by
  cases i <;> simp [Instr.readsElement]

theorem Instr.readsR_iff {i : Instr} :
    i.readsR = true ↔ i = .add ∨ i = .mul01 ∨ i = .mul10 ∨ i = .mul11 ∨ i = .mulbit true ∨ i = .mul := by
  cases i <;> simp [Instr.readsR]

theorem Instr.mem_elementReaders_iff {i : Instr} : i ∈ [Instr.ld, .add, .mul] ↔ i.readsElement = true := by
  simp [Instr.readsElement_iff]

theorem Instr.mem_registerReaders_iff {i : Instr} :
    i ∈ [Instr.add, .mul01, .mul10, .mul11, .mulbit true, .mul] ↔ i.readsR = true := by
  simp [Instr.readsR_iff]

theorem Instr.wellFormed_iff {i : Instr} {opnd : Element} :
    i.wellFormed opnd = true ↔ ¬(i.readsElement = true ∧ opnd.getLsbD 127 = true) := by
  rw [Instr.wellFormed, Bool.not_eq_true', ← Bool.and_eq_true, Bool.not_eq_true]

namespace Machine

theorem wellFormed_of_canonical {opnd : Element} (i : Instr) (h : Canonical opnd) : i.wellFormed opnd = true :=
  Instr.wellFormed_iff.2 fun ⟨_, hb⟩ => Bool.noConfusion (h.symm.trans hb)

theorem canonical_of_wellFormed {i : Instr} {opnd : Element} (hi : i.readsElement = true)
    (h : i.wellFormed opnd = true) : Canonical opnd :=
  (canonical_or_bit127 opnd).resolve_right fun hb => Instr.wellFormed_iff.1 h ⟨hi, hb⟩

/-! ### The readers fault -/

theorem exec_of_readsElement_of_bit127 {i : Instr} {s : State} (hi : i.readsElement = true)
    (hb : s.port.opnd.getLsbD 127 = true) : exec i s = raiseFault .nonCanonicalOperand s := by
  obtain rfl | rfl | rfl := Instr.readsElement_iff.1 hi
  · exact exec_ld_of_bit127 hb
  · exact exec_add_of_bit127 hb
  · exact exec_mul_of_bit127 hb

theorem exec_of_readsR_of_r_none {i : Instr} {s : State} (hi : i.readsR = true)
    (hw : i.wellFormed s.port.opnd = true) (hr : s.r = none) : exec i s = raiseFault .undefinedRead s := by
  obtain rfl | rfl | rfl | rfl | rfl | rfl := Instr.readsR_iff.1 hi
  case inl => exact exec_add_of_r_none (canonical_of_wellFormed rfl hw) hr
  case inr.inr.inr.inr.inr => exact exec_mul_of_r_none (canonical_of_wellFormed rfl hw) hr
  all_goals exact withR_of_none hr

/-! ### No other command faults, and for no other reason -/

theorem writeR_fault {e : Element} {s t : State} (h : writeR e s = .next t) : t.fault = s.fault := by
  obtain rfl := writeR_eq_next.1 h
  exact s.setR_fault e

theorem withR_writeR_cases {f : Element → Element} {s t : State}
    (h : withR (fun a => writeR (f a) s) s = .next t) :
    t.fault = s.fault ∨ (s.r = none ∧ s.raise .undefinedRead = t) :=
  (withR_cases h).imp_left fun ⟨_, _, ha⟩ => writeR_fault ha

theorem withElement_withR_writeR_cases {f : Element → Element → Element} {s t : State}
    (h : withElement (fun b => withR (fun a => writeR (f a b) s) s) s = .next t) :
    t.fault = s.fault ∨ (s.port.opnd.getLsbD 127 = true ∧ s.raise .nonCanonicalOperand = t) ∨
      (s.r = none ∧ s.raise .undefinedRead = t) := by
  rcases withElement_cases h with ⟨-, hk⟩ | hraise
  · exact (withR_writeR_cases hk).imp_right .inr
  · exact .inr (.inl hraise)

/-- Every way in which a command can change the fault mark. -/
theorem exec_fault_cases {i : Instr} {s t : State} (h : exec i s = .next t) :
    t.fault = s.fault ∨
      (i.readsElement = true ∧ s.port.opnd.getLsbD 127 = true ∧ s.raise .nonCanonicalOperand = t) ∨
      (i.readsR = true ∧ s.r = none ∧ s.raise .undefinedRead = t) := by
  cases i with
  | nop => exact .inl (hold_eq_next.1 h ▸ rfl)
  | clr => exact .inl (writeR_fault h)
  | lds => exact .inl (writeR_fault h)
  | ld =>
    rw [exec_ld] at h
    rcases withElement_cases h with ⟨-, hwrite⟩ | hraise
    · exact .inl (writeR_fault hwrite)
    · exact .inr (.inl ⟨rfl, hraise⟩)
  | add => exact (withElement_withR_writeR_cases h).imp_right (Or.imp (⟨rfl, ·⟩) (⟨rfl, ·⟩))
  | mul00 => exact .inl (writeR_fault h)
  | mul01 => exact (withR_writeR_cases h).imp_right fun hraise => .inr ⟨rfl, hraise⟩
  | mul10 => exact (withR_writeR_cases h).imp_right fun hraise => .inr ⟨rfl, hraise⟩
  | mul11 => exact (withR_writeR_cases h).imp_right fun hraise => .inr ⟨rfl, hraise⟩
  | mulbit b =>
    cases b with
    | false => exact .inl (writeR_fault h)
    | true => exact (withR_writeR_cases h).imp_right fun hraise => .inr ⟨rfl, hraise⟩
  | mul => exact (withElement_withR_writeR_cases h).imp_right (Or.imp (⟨rfl, ·⟩) (⟨rfl, ·⟩))

/-- A command that answers a faulted state from a fault-free one has raised one of the two faults, for its cause. -/
theorem exec_raises {i : Instr} {s t : State} {f : FaultRecord} (hs : s.fault = none) (h : exec i s = .next t)
    (hf : t.fault = some f) :
    (f.reason = .nonCanonicalOperand ∧ i.readsElement = true ∧ s.port.opnd.getLsbD 127 = true) ∨
      (f.reason = .undefinedRead ∧ i.readsR = true ∧ s.r = none) := by
  rcases exec_fault_cases h with hkept | ⟨hi, hb, rfl⟩ | ⟨hi, hr, rfl⟩
  · cases (hkept.trans hs).symm.trans hf
  · cases hf
    exact .inl ⟨rfl, hi, hb⟩
  · cases hf
    exact .inr ⟨rfl, hi, hr⟩

theorem exec_answers_next (i : Instr) (s : State) : ∃ t, exec i s = .next t := by
  rcases exec_shape i s with h | ⟨_, h⟩ | ⟨_, h⟩ <;> exact ⟨_, h⟩

/-- A command whose operand and register are in order keeps the fault mark. -/
theorem exec_of_wellFormed_of_readable {i : Instr} {s : State} (hw : i.wellFormed s.port.opnd = true)
    (hr : ¬(i.readsR = true ∧ s.r = none)) : ∃ t, exec i s = .next t ∧ t.fault = s.fault := by
  obtain ⟨t, ht⟩ := exec_answers_next i s
  rcases exec_fault_cases ht with hkept | ⟨hi, hb, -⟩ | ⟨hi, hnone, -⟩
  · exact ⟨t, ht, hkept⟩
  · exact absurd ⟨hi, hb⟩ (Instr.wellFormed_iff.1 hw)
  · exact absurd ⟨hi, hnone⟩ hr

/-! ### The faults and their causes (R115 to R117) -/

theorem legalCmd_encode (i : Instr) : legalCmd (encode i) = true :=
  (by decide : ∀ j ∈ allInstrs, legalCmd (encode j) = true) i (mem_allInstrs i)

theorem decode_illegal_of_legalCmd_eq_false {cmd : Cmd} (h : legalCmd cmd = false) :
    ∃ why, decode cmd = .illegal why := by
  cases hd : decode cmd with
  | instr i =>
    rw [decode_eq_instr_iff.1 hd, legalCmd_encode] at h
    cases h
  | illegal why => exact ⟨why, rfl⟩

/-- Settles O21: the decoder refuses the words that R52 lists, and a command raises only the other two faults. -/
theorem onlyTheDecoderRaisesIllegalCommand : Obligations.OnlyTheDecoderRaisesIllegalCommand := by
  refine ⟨fun s p later hf hp hr hv hcmd => ?_, fun i s t f hs h hf hill => ?_⟩
  · obtain ⟨why, hd⟩ := decode_illegal_of_legalCmd_eq_false hcmd
    exact step_of_illegal hf hp hr hv hd
  · rcases exec_raises hs h hf with ⟨hreason, -⟩ | ⟨hreason, -⟩ <;> cases hreason.symm.trans hill

/-- Settles O22. -/
theorem nonCanonicalOperandIsRaisedByLdAddMulOnly : Obligations.NonCanonicalOperandIsRaisedByLdAddMulOnly := by
  intro i s hs
  rw [← Instr.readsElement_iff]
  refine ⟨exec_of_readsElement_of_bit127, fun t f h hf hnc => ?_⟩
  rcases exec_raises hs h hf with ⟨-, hcause⟩ | ⟨hreason, -⟩
  · exact hcause
  · cases hreason.symm.trans hnc

/-- The readers of `R` that check no operand, and the two that do with a canonical one. -/
theorem readsR_and_wellFormed {i : Instr} {opnd : Element}
    (h : i = .mul01 ∨ i = .mul10 ∨ i = .mul11 ∨ i = .mulbit true ∨ (i = .add ∨ i = .mul) ∧ opnd.getLsbD 127 = false) :
    i.readsR = true ∧ i.wellFormed opnd = true := by
  rcases h with rfl | rfl | rfl | rfl | ⟨rfl | rfl, hb⟩
  · exact ⟨rfl, rfl⟩
  · exact ⟨rfl, rfl⟩
  · exact ⟨rfl, rfl⟩
  · exact ⟨rfl, rfl⟩
  · exact ⟨rfl, wellFormed_of_canonical .add hb⟩
  · exact ⟨rfl, wellFormed_of_canonical .mul hb⟩

/-- Settles O23. -/
theorem undefinedReadIsRaisedByReadersOnly : Obligations.UndefinedReadIsRaisedByReadersOnly := by
  intro i s hs
  refine ⟨fun hi hr => ?_, fun t f h hf hur => ?_⟩
  · obtain ⟨hreads, hw⟩ := readsR_and_wellFormed hi
    exact exec_of_readsR_of_r_none hreads hw hr
  · rcases exec_raises hs h hf with ⟨hreason, -⟩ | ⟨-, hi, hr⟩
    · cases hreason.symm.trans hur
    · exact ⟨Instr.readsR_iff.1 hi, hr⟩

/-! ### The order of the checks (R118) -/

theorem step_of_rst {s : State} {p : StepInput} {later : List StepInput} (hf : s.fault = none)
    (hp : s.pending = p :: later) (hr : p.rst = true) : step s = .next ((s.drive p later).setR 0) := by
  rw [step_of_cons hp, clockEdge_of_rst (s := s.drive p later) hf hr, resetEdge, writeR]

/-- Settles O7: rows 1 to 4 are the step's own cases; in rows 5 to 7 the step is `exec`, which checks the operand, then
`R`, and then has nothing to fault on. -/
theorem firstMatchingRowDecidesTheStep : Obligations.FirstMatchingRowDecidesTheStep := by
  refine fun s p later hp => ⟨step_of_fault hp, fun hf => ⟨step_of_rst hf hp, step_of_idle hp, fun hr hv =>
    ⟨fun why => step_of_illegal hf hp hr hv, fun i hd => ?_⟩⟩⟩
  rw [step_of_instr hf hp hr hv hd, Instr.mem_elementReaders_iff, Instr.mem_registerReaders_iff,
    ← Instr.wellFormed_iff]
  refine ⟨exec_of_readsElement_of_bit127 (s := s.drive p later), fun hw =>
    ⟨fun hi => exec_of_readsR_of_r_none (s := s.drive p later) hi hw, fun hread => ⟨rfl, ?_⟩⟩⟩
  obtain ⟨t, ht, hkept⟩ := exec_of_wellFormed_of_readable (s := s.drive p later) hw hread
  exact ⟨t, ht, hkept.trans hf⟩

end Machine

end Sys2Proof
end

section
/-! Runs in which no edge has an effect: after a fault (60_exceptions.md R119), and with `cmd_valid` held at 0
(70_reset_and_hazards.md R131). -/

namespace Sys2Proof.Machine

theorem runInputs_cons_of_step {s t : State} {p : StepInput} (later : List StepInput)
    (h : step { s with pending := [p] } = .next t) : runInputs s (p :: later) = runInputs t later := by
  rw [runInputs, h]

/-- A fault stays, and `R` with it, whatever the host supplies. -/
theorem runInputs_of_fault {s : State} {f : FaultRecord} (hf : s.fault = some f) (inputs : List StepInput) :
    (runInputs s inputs).fault = some f ∧ (runInputs s inputs).r = s.r := by
  refine runInputs_induction (P := fun t => t.fault = some f ∧ t.r = s.r) ?_ s inputs ⟨hf, rfl⟩
  rintro u p t ⟨huf, hur⟩ h
  have hstep := step_of_fault (s := { u with pending := [p] }) rfl (Option.ne_none_iff_exists'.2 ⟨f, huf⟩)
  cases hstep.symm.trans h
  exact ⟨huf, hur⟩

/-- Settles O11: a faulted step only samples the ports, so a run from there ends with the fault standing. -/
theorem faultIsStickyAndQuiescent : Obligations.FaultIsStickyAndQuiescent := by
  refine fun s f hf => ⟨fun p later hp => step_of_fault hp (Option.ne_none_iff_exists'.2 ⟨f, hf⟩), fun inputs => ?_⟩
  obtain ⟨hfault, hr⟩ := runInputs_of_fault hf inputs
  refine ⟨hfault, hr, fun ⟨hnone, _⟩ => ?_⟩
  cases hfault.symm.trans hnone

/-- Settles O13, by induction on the edges: each of them only samples the ports. -/
theorem idleEdgesKeepTheRegister : Obligations.IdleEdgesKeepTheRegister := by
  intro s inputs hidle
  induction inputs generalizing s with
  | nil => exact ⟨rfl, rfl⟩
  | cons p later ih =>
    obtain ⟨⟨hrst, hvalid⟩, hlater⟩ := List.forall_mem_cons.1 hidle
    rw [runInputs_cons_of_step later (step_of_idle rfl hrst hvalid)]
    exact ih _ hlater

end Sys2Proof.Machine
end

section
/-! What every step and every run does: a supplied step answers a next state (70_reset_and_hazards.md R138), reset edges
load 0 (R132), and a run is the steps of its inputs in their order (R39). -/

namespace Sys2Proof.Machine

/-! ### Every step is enabled -/

/-- An edge has an outcome in every state, and leaves the inputs as the host drives them. -/
theorem clockEdge_answers_next (s : State) :
    ∃ t, clockEdge s = .next t ∧ t.port = s.port ∧ t.pending = s.pending := by
  cases hf : s.fault with
  | some f => exact ⟨s, clockEdge_of_fault hf, rfl, rfl⟩
  | none =>
    cases hr : s.port.rst with
    | true => exact ⟨s.setR 0, clockEdge_of_rst hf hr, rfl, rfl⟩
    | false =>
      cases hv : s.port.cmdValid with
      | false => exact ⟨s, clockEdge_of_idle hf hr hv, rfl, rfl⟩
      | true =>
        rw [clockEdge_of_accept hf hr hv]
        cases hd : decode s.port.cmd with
        | illegal why => exact ⟨s.raise .illegalCommand, acceptCommand_of_illegal hd, rfl, rfl⟩
        | instr i =>
          obtain ⟨t, ht⟩ := exec_answers_next i s
          obtain ⟨hport, hpending, -⟩ := commandsChangeOnlyRegisterOrFaultMark i s t ht
          exact ⟨t, (acceptCommand_of_instr hd).trans ht, hport, hpending⟩

/-- Settles O9: the step is the edge on the driven ports. -/
theorem everySuppliedStepIsEnabled : Obligations.EverySuppliedStepIsEnabled := by
  intro s p later hp
  rw [step_of_cons hp]
  exact clockEdge_answers_next (s.drive p later)

/-! ### Reset edges (R132) -/

theorem runInputs_of_rst {s : State} {p : StepInput} {later : List StepInput} (hf : s.fault = none)
    (hrst : ∀ q ∈ p :: later, q.rst = true) :
    (runInputs s (p :: later)).r = some 0 ∧ (runInputs s (p :: later)).fault = none := by
  induction later generalizing s p with
  | nil =>
    rw [runInputs_cons_of_step [] (step_of_rst hf rfl (hrst p List.mem_cons_self))]
    exact ⟨rfl, hf⟩
  | cons q later ih =>
    rw [runInputs_cons_of_step (q :: later) (step_of_rst hf rfl (hrst p List.mem_cons_self))]
    exact ih hf (List.forall_mem_cons.1 hrst).2

/-- Settles O12: each reset edge writes 0, and with no fault standing `q` shows it. -/
theorem resetEdgeLoadsZero : Obligations.ResetEdgeLoadsZero := by
  refine fun s hf => ⟨fun p later hp hr => ⟨step_of_rst hf hp hr, State.q_of_no_fault hf⟩, fun inputs hne hrst => ?_⟩
  obtain ⟨p, later, rfl⟩ := List.exists_cons_of_ne_nil hne
  obtain ⟨hr, hfault⟩ := runInputs_of_rst hf hrst
  exact ⟨hr, hfault, (State.q_of_no_fault hfault).trans hr⟩

/-! ### No edge sees the inputs to come -/

/-- The answer, with other inputs to come. -/
def withPending (later : List StepInput) : Result → Result
  | .next t => .next { t with pending := later }
  | .fault r => .fault r
  | .refused r => .refused r

theorem withR_update_pending {k k' : Element → Result} {s : State} {later : List StepInput}
    (hk : ∀ a, k' a = withPending later (k a)) :
    withR k' { s with pending := later } = withPending later (withR k s) := by
  obtain ⟨r, fault, port, pending⟩ := s
  cases r with
  | none => rfl
  | some a => exact hk a

theorem withElement_update_pending {k k' : Element → Result} {s : State} {later : List StepInput}
    (hk : ∀ b, k' b = withPending later (k b)) :
    withElement k' { s with pending := later } = withPending later (withElement k s) := by
  rcases canonical_or_bit127 s.port.opnd with hb | hb
  · rw [withElement_of_canonical hb, withElement_of_canonical (s := { s with pending := later }) hb, hk]
  · rw [withElement_of_bit127 hb, withElement_of_bit127 (s := { s with pending := later }) hb]
    rfl

theorem exec_update_pending (i : Instr) (s : State) (later : List StepInput) :
    exec i { s with pending := later } = withPending later (exec i s) := by
  cases i with
  | nop | clr | lds | mul00 => rfl
  | ld =>
    rw [exec_ld, exec_ld]
    exact withElement_update_pending fun _ => rfl
  | add =>
    rw [exec_add, exec_add]
    exact withElement_update_pending fun _ => withR_update_pending fun _ => rfl
  | mul01 | mul10 | mul11 => exact withR_update_pending fun _ => rfl
  | mulbit b =>
    cases b with
    | false => rfl
    | true => exact withR_update_pending fun _ => rfl
  | mul =>
    rw [exec_mul, exec_mul]
    exact withElement_update_pending fun _ => withR_update_pending fun _ => rfl

theorem acceptCommand_update_pending (s : State) (later : List StepInput) :
    acceptCommand { s with pending := later } = withPending later (acceptCommand s) := by
  cases hd : decode s.port.cmd with
  | illegal why =>
    rw [acceptCommand_of_illegal hd, acceptCommand_of_illegal (s := { s with pending := later }) hd]
    rfl
  | instr i =>
    rw [acceptCommand_of_instr hd, acceptCommand_of_instr (s := { s with pending := later }) hd]
    exact exec_update_pending i s later

theorem clockEdge_update_pending (s : State) (later : List StepInput) :
    clockEdge { s with pending := later } = withPending later (clockEdge s) := by
  obtain ⟨r, fault, ⟨rst, cmdValid, cmd, opnd⟩, pending⟩ := s
  cases fault with
  | some f => rfl
  | none =>
    cases rst with
    | true => rfl
    | false =>
      cases cmdValid with
      | false => rfl
      | true => exact acceptCommand_update_pending _ later

/-- The step of one input out of many is its step alone, up to the inputs that wait behind it. -/
theorem step_alone {s t : State} {p : StepInput} {later : List StepInput} (hp : s.pending = p :: later)
    (h : step s = .next t) : step { s with pending := [p] } = .next { t with pending := [] } := by
  rw [step_of_cons hp] at h
  calc step { s with pending := [p] } = clockEdge { s.drive p later with pending := [] } := rfl
    _ = withPending [] (clockEdge (s.drive p later)) := clockEdge_update_pending _ []
    _ = .next { t with pending := [] } := by rw [h]; rfl

/-! ### A run is the steps of its inputs -/

theorem run_succ_of_step {M : Host.Core} {s t : M.State} (n : Nat) (h : M.step s = .next t) :
    M.run (n + 1) s = M.run n t := by
  rw [Host.Core.run, h]

/-- A run supplies its own inputs: what was pending before plays no part. -/
theorem runInputs_update_pending (s : State) (inputs l : List StepInput) :
    (runInputs { s with pending := l } inputs).r = (runInputs s inputs).r ∧
      (runInputs { s with pending := l } inputs).fault = (runInputs s inputs).fault := by
  cases inputs with
  | nil => exact ⟨rfl, rfl⟩
  | cons p later =>
    obtain ⟨t, ht, -, -⟩ := everySuppliedStepIsEnabled { s with pending := [p] } p [] rfl
    rw [runInputs_cons_of_step later ht, runInputs_cons_of_step (s := { s with pending := l }) later ht]
    exact ⟨rfl, rfl⟩

theorem run_pending (s : State) (inputs : List StepInput) (hs : s.pending = inputs) :
    ∃ t : State, Host.Core.run core inputs.length s = .next t ∧ t.pending = [] ∧
      t.r = (runInputs s inputs).r ∧ t.fault = (runInputs s inputs).fault := by
  induction inputs generalizing s with
  | nil => exact ⟨s, rfl, hs, rfl, rfl⟩
  | cons p later ih =>
    obtain ⟨u, hu, -, hpending⟩ := everySuppliedStepIsEnabled s p later hs
    obtain ⟨t, ht, hdone, hr, hfault⟩ := ih u hpending
    obtain ⟨hr', hfault'⟩ := runInputs_update_pending u later []
    refine ⟨t, (run_succ_of_step (M := core) later.length hu).trans ht, hdone, ?_, ?_⟩
    · rw [runInputs_cons_of_step later (step_alone hs hu), hr, hr']
    · rw [runInputs_cons_of_step later (step_alone hs hu), hfault, hfault']

theorem runInputs_append (s : State) (first second : List StepInput) :
    runInputs s (first ++ second) = runInputs (runInputs s first) second := by
  induction first generalizing s with
  | nil => rfl
  | cons p later ih =>
    obtain ⟨t, ht, -, -⟩ := everySuppliedStepIsEnabled { s with pending := [p] } p [] rfl
    rw [List.cons_append, runInputs_cons_of_step _ ht, runInputs_cons_of_step later ht, ih]

/-- Settles O19, by induction on the pending inputs: the machine's step and the run's step differ only in the inputs they
leave pending, which no later edge sees. -/
theorem stepsOfThePendingInputsAreTheRun : Obligations.StepsOfThePendingInputsAreTheRun :=
  ⟨fun s => run_pending s s.pending rfl, runInputs_append⟩

end Sys2Proof.Machine
end

section
/-! The well-behaved host (70_reset_and_hazards.md R134, R139): one booting edge makes `R` defined, no step undefines it, and
a host that keeps its duties meets no fault. -/

namespace Sys2Proof.Machine

/-! ### A defined register stays defined -/

theorem exec_r_ne_none {i : Instr} {s t : State} (hs : s.r ≠ none) (h : exec i s = .next t) : t.r ≠ none := by
  rcases exec_cases h with rfl | ⟨e, rfl⟩ | ⟨c, rfl⟩
  · exact hs
  · exact Option.some_ne_none e
  · exact hs

theorem clockEdge_r_ne_none {s t : State} (hs : s.r ≠ none) (h : clockEdge s = .next t) : t.r ≠ none := by
  rcases clockEdge_cases h with rfl | ⟨-, -, rfl⟩ | ⟨-, -, -, ⟨-, -, rfl⟩ | ⟨i, -, hi⟩⟩
  · exact hs
  · exact Option.some_ne_none 0
  · exact hs
  · exact exec_r_ne_none hs hi

theorem step_r_ne_none {s t : State} (hs : s.r ≠ none) (h : step s = .next t) : t.r ≠ none := by
  obtain ⟨p, later, -, hedge⟩ := step_cases h
  exact clockEdge_r_ne_none (s := s.drive p later) hs hedge

theorem runInputs_r_ne_none (s : State) (inputs : List StepInput) (hs : s.r ≠ none) : (runInputs s inputs).r ≠ none :=
  runInputs_induction (P := fun t => t.r ≠ none) (fun s p _ => step_r_ne_none (s := { s with pending := [p] }))
    s inputs hs

theorem State.ready_iff (s : State) : s.Ready ↔ s.fault = none ∧ s.r ≠ none ∧ s.Inv := by
  unfold State.Ready State.Inv
  cases s.r <;> simp

/-! ### Dutiful inputs -/

/-- What a host that keeps its duties can present. -/
theorem StepInput.dutiful_cases {p : StepInput} (h : p.dutiful = true) :
    p.rst = true ∨ (p.rst = false ∧ p.cmdValid = false) ∨
      (p.rst = false ∧ p.cmdValid = true ∧ ∃ i, decode p.cmd = .instr i ∧ i.wellFormed p.opnd = true) := by
  unfold StepInput.dutiful at h
  cases hr : p.rst with
  | true => exact .inl rfl
  | false =>
    cases hv : p.cmdValid with
    | false => exact .inr (.inl ⟨rfl, rfl⟩)
    | true =>
      cases hd : decode p.cmd with
      | illegal why => simp [hr, hv, hd] at h
      | instr i => exact .inr (.inr ⟨rfl, rfl, i, rfl, by simpa [hr, hv, hd] using h⟩)

/-- With `R` defined, the duties exclude every cause of a fault. -/
theorem step_of_dutiful {s : State} {p : StepInput} {later : List StepInput} (hf : s.fault = none) (hs : s.r ≠ none)
    (hp : s.pending = p :: later) (hd : p.dutiful = true) : ∃ t, step s = .next t ∧ t.fault = none := by
  rcases StepInput.dutiful_cases hd with hr | ⟨hr, hv⟩ | ⟨hr, hv, i, hi, hw⟩
  · exact ⟨_, step_of_rst hf hp hr, hf⟩
  · exact ⟨_, step_of_idle hp hr hv, hf⟩
  · obtain ⟨t, ht, hkept⟩ := exec_of_wellFormed_of_readable (s := s.drive p later) hw fun ⟨_, hnone⟩ => hs hnone
    exact ⟨t, (step_of_instr hf hp hr hv hi).trans ht, hkept.trans hf⟩

/-- Settles O17: a dutiful step keeps the fault mark clear, `R` defined, and `R` canonical; and it takes the next input off
the pending ones. -/
theorem dutifulHostNeverMeetsAFault : Obligations.DutifulHostNeverMeetsAFault := by
  intro s hs hduty hne
  obtain ⟨hf, hr, hinv⟩ := s.ready_iff.1 hs
  obtain ⟨p, later, hp⟩ := List.exists_cons_of_ne_nil hne
  rw [hp] at hduty
  obtain ⟨hpduty, hlater⟩ := List.forall_mem_cons.1 hduty
  obtain ⟨t, ht, hfault⟩ := step_of_dutiful hf hr hp hpduty
  obtain ⟨u, hu, -, hpending⟩ := everySuppliedStepIsEnabled s p later hp
  cases hu.symm.trans ht
  exact ⟨t, ht, t.ready_iff.2 ⟨hfault, step_r_ne_none hr ht, everyStepKeepsTheRegisterCanonical s t hinv ht⟩,
    hpending ▸ hlater⟩

/-! ### Booting inputs (R134) -/

/-- The commands of R134, step 1: they write `R` and do not read it. -/
def bootCommands : List Instr := [.clr, .lds, .ld, .mul00, .mulbit false]

theorem StepInput.boots_iff {p : StepInput} :
    p.boots = true ↔ p.rst = true ∨ (p.cmdValid = true ∧ p.cmd ∈ bootCommands.map encode) := by
  rw [StepInput.boots, Bool.or_eq_true, Bool.and_eq_true, List.contains_iff_mem]
  rfl

theorem exec_of_mem_bootCommands {i : Instr} {s : State} (hi : i ∈ bootCommands)
    (hw : i.wellFormed s.port.opnd = true) : ∃ e, Canonical e ∧ exec i s = writeR e s := by
  simp only [bootCommands, List.mem_cons, List.not_mem_nil, or_false] at hi
  rcases hi with rfl | rfl | rfl | rfl | rfl
  · exact ⟨zero, canonical_zero, exec_clr s⟩
  · exact ⟨_, canonical_fromSmallInt _, exec_lds s⟩
  · have hb : Canonical s.port.opnd := canonical_of_wellFormed rfl hw
    exact ⟨_, hb, exec_ld_of_canonical hb⟩
  · exact ⟨zero, canonical_zero, exec_mul00 s⟩
  · exact ⟨zero, canonical_zero, exec_mulbit_false s⟩

/-- A dutiful booting edge writes a canonical element, whatever `R` held. -/
theorem step_of_boots {s : State} {p : StepInput} {later : List StepInput} (hf : s.fault = none)
    (hp : s.pending = p :: later) (hb : p.boots = true) (hd : p.dutiful = true) :
    ∃ e, Canonical e ∧ step s = .next ((s.drive p later).setR e) := by
  rcases StepInput.dutiful_cases hd with hr | ⟨hr, hv⟩ | ⟨hr, hv, i, hi, hw⟩
  · exact ⟨0, canonical_zero, step_of_rst hf hp hr⟩
  · simp [StepInput.boots_iff, hr, hv] at hb
  · obtain ⟨-, hcmd⟩ := (StepInput.boots_iff.1 hb).resolve_left (by simp [hr])
    obtain ⟨j, hj, hword⟩ := List.mem_map.1 hcmd
    obtain rfl : j = i := encode_injective (hword.trans (decode_eq_instr_iff.1 hi))
    obtain ⟨e, he, hexec⟩ := exec_of_mem_bootCommands (s := s.drive p later) hj hw
    exact ⟨e, he, (step_of_instr hf hp hr hv hi).trans hexec⟩

/-- Settles O18: the booting edge writes a canonical element; a run then keeps `R` defined and canonical. -/
theorem bootMakesTheRegisterDefinedForGood : Obligations.BootMakesTheRegisterDefinedForGood := by
  refine ⟨fun s p later hf hp hb hd => ?_, fun s inputs hs hfault => ?_⟩
  · obtain ⟨e, he, hstep⟩ := step_of_boots hf hp hb hd
    exact ⟨_, hstep, hf, e, rfl, he⟩
  · obtain ⟨-, hr, hinv⟩ := s.ready_iff.1 hs
    exact (State.ready_iff _).2 ⟨hfault, runInputs_r_ne_none s inputs hr, runInputs_inv s inputs hinv⟩

end Sys2Proof.Machine
end

section
/-! The end of a run (R138): `step` stops by name in the states with no pending input, and in no other. -/

namespace Sys2Proof.Machine

/-- Settles O10: with no pending input `step` is the named stop; a pending one makes it answer a next state. -/
theorem noPendingInputIsTheEndOfTheRun : Obligations.NoPendingInputIsTheEndOfTheRun := by
  refine fun s => ⟨fun hstop => ?_, step_of_nil⟩
  by_contra hne
  obtain ⟨p, later, hp⟩ := List.exists_cons_of_ne_nil hne
  obtain ⟨t, hnext, -, -⟩ := everySuppliedStepIsEnabled s p later hp
  cases hnext.symm.trans hstop

end Sys2Proof.Machine
end
